-- ==== Sys2Proof/Word.lean ====
section
/-! DEFINITION. The widths of the machine's values (00_scope.md R7, R9: all of them unsigned). -/

namespace Sys2Proof

/-- A nibble: a 4-bit field of an instruction word, a register index or a key number (R9, R12). -/
abbrev Nibble := BitVec 4

/-- A byte of memory, a general register or a timer (R7). -/
abbrev Byte := BitVec 8

/-- A 12-bit address field `nnn` (R52). -/
abbrev Addr := BitVec 12

/-- An instruction word, the index register, the program counter or a return address (R7). -/
abbrev Word := BitVec 16

end Sys2Proof
end

