-- ==== Sys2Proof/Syntax.lean ====
section
/-! DEFINITION. The instructions: one constructor for each row of spec/opcode_table.json, in the table's order
(30_encoding.md R54), with the operand fields of R52. -/

namespace Sys2Proof

/-- An instruction. `shr` and `shl` keep the ignored `y` field of their word (42_alu.md R96, R98). -/
inductive Instr where
  | cls                            -- 00E0
  | ret                            -- 00EE
  | jp (nnn : Addr)                -- 1nnn
  | call (nnn : Addr)              -- 2nnn
  | seImm (x : Nibble) (kk : Byte)     -- 3xkk
  | sneImm (x : Nibble) (kk : Byte)    -- 4xkk
  | seReg (x y : Nibble)           -- 5xy0
  | ldImm (x : Nibble) (kk : Byte)     -- 6xkk
  | addImm (x : Nibble) (kk : Byte)    -- 7xkk
  | ldReg (x y : Nibble)           -- 8xy0, only when LD_VX_VY_PRESENT
  | orReg (x y : Nibble)           -- 8xy1
  | andReg (x y : Nibble)          -- 8xy2
  | xorReg (x y : Nibble)          -- 8xy3
  | addReg (x y : Nibble)          -- 8xy4
  | subReg (x y : Nibble)          -- 8xy5
  | shr (x y : Nibble)             -- 8xy6
  | subnReg (x y : Nibble)         -- 8xy7
  | shl (x y : Nibble)             -- 8xyE
  | sneReg (x y : Nibble)          -- 9xy0
  | ldI (nnn : Addr)               -- Annn
  | jpV0 (nnn : Addr)              -- Bnnn
  | rnd (x : Nibble) (kk : Byte)       -- Cxkk
  | drw (x y n : Nibble)           -- Dxyn
  | skp (x : Nibble)               -- Ex9E
  | sknp (x : Nibble)              -- ExA1
  | ldVxDt (x : Nibble)            -- Fx07
  | ldVxK (x : Nibble)             -- Fx0A
  | ldDtVx (x : Nibble)            -- Fx15
  | ldStVx (x : Nibble)            -- Fx18
  | addIVx (x : Nibble)            -- Fx1E
  | ldFVx (x : Nibble)             -- Fx29
  | ldBVx (x : Nibble)             -- Fx33
  | ldMemVx (x : Nibble)           -- Fx55
  | ldVxMem (x : Nibble)           -- Fx65
  deriving DecidableEq, Repr

end Sys2Proof
end

