-- ==== Sys2Proof/Decode.lean ====
section
/-! DEFINITION. Decoding by the opcode map of 30_encoding.md R54 (mask and match, R53), and encoding (R59).
The spec takes every pattern but `00E0`, and the places of the fields, from general knowledge (93_implementation_defined.md
G1, G2): UNVERIFIED against the source, log 10. -/

namespace Sys2Proof

/-! ### The operand fields of a word (30_encoding.md R52) -/

/-- Bits 11 to 8. -/
def fieldX (w : Word) : Nibble := w.extractLsb' 8 4
/-- Bits 7 to 4. -/
def fieldY (w : Word) : Nibble := w.extractLsb' 4 4
/-- Bits 3 to 0. -/
def fieldN (w : Word) : Nibble := w.extractLsb' 0 4
/-- Bits 7 to 0. -/
def fieldKk (w : Word) : Byte := w.extractLsb' 0 8
/-- Bits 11 to 0. -/
def fieldNnn (w : Word) : Addr := w.extractLsb' 0 12

/-! ### The opcode map -/

/-- A row of the opcode map: its mask, its match and the instruction its fields spell. -/
structure OpcodeRow where
  mask  : Word
  value : Word
  build : Word → Instr

/-- "The word selects the row when `w & mask == match`" (30_encoding.md R53). -/
def OpcodeRow.selects (r : OpcodeRow) (w : Word) : Bool := w &&& r.mask == r.value

/-- Rows 1 to 9 of R54. -/
def opcodeRowsLow : List OpcodeRow := [
  ⟨0xFFFF, 0x00E0, fun _ => .cls⟩,
  ⟨0xFFFF, 0x00EE, fun _ => .ret⟩,
  ⟨0xF000, 0x1000, fun w => .jp (fieldNnn w)⟩,
  ⟨0xF000, 0x2000, fun w => .call (fieldNnn w)⟩,
  ⟨0xF000, 0x3000, fun w => .seImm (fieldX w) (fieldKk w)⟩,
  ⟨0xF000, 0x4000, fun w => .sneImm (fieldX w) (fieldKk w)⟩,
  ⟨0xF00F, 0x5000, fun w => .seReg (fieldX w) (fieldY w)⟩,
  ⟨0xF000, 0x6000, fun w => .ldImm (fieldX w) (fieldKk w)⟩,
  ⟨0xF000, 0x7000, fun w => .addImm (fieldX w) (fieldKk w)⟩]

/-- Rows 10 to 18 of R54, the register-register forms. -/
def opcodeRowsAlu : List OpcodeRow := [
  ⟨0xF00F, 0x8000, fun w => .ldReg (fieldX w) (fieldY w)⟩,
  ⟨0xF00F, 0x8001, fun w => .orReg (fieldX w) (fieldY w)⟩,
  ⟨0xF00F, 0x8002, fun w => .andReg (fieldX w) (fieldY w)⟩,
  ⟨0xF00F, 0x8003, fun w => .xorReg (fieldX w) (fieldY w)⟩,
  ⟨0xF00F, 0x8004, fun w => .addReg (fieldX w) (fieldY w)⟩,
  ⟨0xF00F, 0x8005, fun w => .subReg (fieldX w) (fieldY w)⟩,
  ⟨0xF00F, 0x8006, fun w => .shr (fieldX w) (fieldY w)⟩,
  ⟨0xF00F, 0x8007, fun w => .subnReg (fieldX w) (fieldY w)⟩,
  ⟨0xF00F, 0x800E, fun w => .shl (fieldX w) (fieldY w)⟩]

/-- Rows 19 to 25 of R54. -/
def opcodeRowsMid : List OpcodeRow := [
  ⟨0xF00F, 0x9000, fun w => .sneReg (fieldX w) (fieldY w)⟩,
  ⟨0xF000, 0xA000, fun w => .ldI (fieldNnn w)⟩,
  ⟨0xF000, 0xB000, fun w => .jpV0 (fieldNnn w)⟩,
  ⟨0xF000, 0xC000, fun w => .rnd (fieldX w) (fieldKk w)⟩,
  ⟨0xF000, 0xD000, fun w => .drw (fieldX w) (fieldY w) (fieldN w)⟩,
  ⟨0xF0FF, 0xE09E, fun w => .skp (fieldX w)⟩,
  ⟨0xF0FF, 0xE0A1, fun w => .sknp (fieldX w)⟩]

/-- Rows 26 to 34 of R54. -/
def opcodeRowsHigh : List OpcodeRow := [
  ⟨0xF0FF, 0xF007, fun w => .ldVxDt (fieldX w)⟩,
  ⟨0xF0FF, 0xF00A, fun w => .ldVxK (fieldX w)⟩,
  ⟨0xF0FF, 0xF015, fun w => .ldDtVx (fieldX w)⟩,
  ⟨0xF0FF, 0xF018, fun w => .ldStVx (fieldX w)⟩,
  ⟨0xF0FF, 0xF01E, fun w => .addIVx (fieldX w)⟩,
  ⟨0xF0FF, 0xF029, fun w => .ldFVx (fieldX w)⟩,
  ⟨0xF0FF, 0xF033, fun w => .ldBVx (fieldX w)⟩,
  ⟨0xF0FF, 0xF055, fun w => .ldMemVx (fieldX w)⟩,
  ⟨0xF0FF, 0xF065, fun w => .ldVxMem (fieldX w)⟩]

/-- The opcode map, all 34 rows (30_encoding.md R54). -/
def opcodeTable : List OpcodeRow := opcodeRowsLow ++ opcodeRowsAlu ++ opcodeRowsMid ++ opcodeRowsHigh

/-- The instruction of the row that selects the word; `none` is the spec's *unmatched* (30_encoding.md R53, R55).
Row 10, `8xy0`, is always decoded here and its meaning follows R71 where the machine has no such row (42_alu.md R90). -/
def decodeWord (w : Word) : Option Instr :=
  match opcodeTable.find? (fun r => r.selects w) with
  | some r => some (r.build w)
  | none => none

/-! ### Decoding bytes -/

/-- Why some bytes are not an instruction. -/
inductive DecodeError where
  | truncated               -- fewer than the two bytes of a word
  | unmatched (w : Word)    -- no row of the opcode map selects the word (R55)
  deriving DecidableEq, Repr

/-- The big-endian word of two bytes, the first at the lower address (20_memory.md R37). -/
def wordOfBytes (hi lo : Byte) : Word := hi ++ lo

/-- The first instruction of a sequence of bytes, with the bytes after it. -/
def decode : List Byte → Except DecodeError (Instr × List Byte)
  | hi :: lo :: rest =>
    match decodeWord (wordOfBytes hi lo) with
    | some i => .ok (i, rest)
    | none => .error (.unmatched (wordOfBytes hi lo))
  | _ => .error .truncated

/-! ### Encoding (30_encoding.md R59) -/

/-- The word of an instruction: the row's fixed digits, and the operands in their fields. -/
def encode : Instr → Word
  | .cls => 0x00E0#16
  | .ret => 0x00EE#16
  | .jp nnn => 0x1#4 ++ nnn
  | .call nnn => 0x2#4 ++ nnn
  | .seImm x kk => 0x3#4 ++ x ++ kk
  | .sneImm x kk => 0x4#4 ++ x ++ kk
  | .seReg x y => 0x5#4 ++ x ++ y ++ 0x0#4
  | .ldImm x kk => 0x6#4 ++ x ++ kk
  | .addImm x kk => 0x7#4 ++ x ++ kk
  | .ldReg x y => 0x8#4 ++ x ++ y ++ 0x0#4
  | .orReg x y => 0x8#4 ++ x ++ y ++ 0x1#4
  | .andReg x y => 0x8#4 ++ x ++ y ++ 0x2#4
  | .xorReg x y => 0x8#4 ++ x ++ y ++ 0x3#4
  | .addReg x y => 0x8#4 ++ x ++ y ++ 0x4#4
  | .subReg x y => 0x8#4 ++ x ++ y ++ 0x5#4
  | .shr x y => 0x8#4 ++ x ++ y ++ 0x6#4
  | .subnReg x y => 0x8#4 ++ x ++ y ++ 0x7#4
  | .shl x y => 0x8#4 ++ x ++ y ++ 0xE#4
  | .sneReg x y => 0x9#4 ++ x ++ y ++ 0x0#4
  | .ldI nnn => 0xA#4 ++ nnn
  | .jpV0 nnn => 0xB#4 ++ nnn
  | .rnd x kk => 0xC#4 ++ x ++ kk
  | .drw x y n => 0xD#4 ++ x ++ y ++ n
  | .skp x => 0xE#4 ++ x ++ 0x9E#8
  | .sknp x => 0xE#4 ++ x ++ 0xA1#8
  | .ldVxDt x => 0xF#4 ++ x ++ 0x07#8
  | .ldVxK x => 0xF#4 ++ x ++ 0x0A#8
  | .ldDtVx x => 0xF#4 ++ x ++ 0x15#8
  | .ldStVx x => 0xF#4 ++ x ++ 0x18#8
  | .addIVx x => 0xF#4 ++ x ++ 0x1E#8
  | .ldFVx x => 0xF#4 ++ x ++ 0x29#8
  | .ldBVx x => 0xF#4 ++ x ++ 0x33#8
  | .ldMemVx x => 0xF#4 ++ x ++ 0x55#8
  | .ldVxMem x => 0xF#4 ++ x ++ 0x65#8

/-- A word as it lies in memory: high byte first (20_memory.md R37, 30_encoding.md R59). -/
def bytesOfWord (w : Word) : List Byte := [w.extractLsb' 8 8, w.extractLsb' 0 8]

/-- The bytes of an instruction. -/
def encodeBytes (i : Instr) : List Byte := bytesOfWord (encode i)

/-! ### The host's numbering -/

/-- The word whose bits are the low `nbits` of `w`, every bit above them zero. -/
def tableWord (nbits w : Nat) : Word := BitVec.ofNat 16 (w % 2 ^ nbits)

/-- The instruction the decoder reads from a word whose bits are `w`, numbered as spec/opcode_table.json numbers them
(one 16-bit word, bit 0 its least significant). -/
def decodeTableWord (nbits w : Nat) : Option Instr :=
  match decode (bytesOfWord (tableWord nbits w)) with
  | .ok (i, _) => some i
  | .error _ => none

end Sys2Proof
end

