-- ==== Sys2Proof/Config.lean ====
section
/-! DEFINITION. What an implementation fixes (the seven parameters of 00_scope.md R8) and the free values
(the random draws of 60_exceptions.md R131, the partial writes of R120). -/

namespace Sys2Proof

/-- `UNMATCHED_POLICY`: what a step does with a word no row of the opcode map selects (40_fetch_execute.md R71, D1). -/
inductive UnmatchedPolicy where
  | stall      -- the no-op that does not advance
  | advance    -- the spec's `continue`: PC + 2
  | fault      -- raise IllegalOpcode
  deriving DecidableEq, Repr

/-- `KEY_INDEX_MODE`: the key number SKP and SKNP take from a register above 15 (45_input_timers.md R109, D3). -/
inductive KeyIndexMode where
  | lowNibble
  | fault
  deriving DecidableEq, Repr

/-- `ALU_VF_ORDER`: the order of the flag write and the result write (42_alu.md R87, D4). -/
inductive AluVfOrder where
  | sequential
  | flagLast
  deriving DecidableEq, Repr

/-- `DRAW_COORD_READ`: when DRW reads its coordinate registers (44_display.md R107, D5). -/
inductive DrawCoordRead where
  | latched
  | live
  deriving DecidableEq, Repr

/-- `INDEX_OVERFLOW`: what `ADD I, Vx` does past 0xFFFF (43_index_memory.md R101, D10). -/
inductive IndexOverflow where
  | wrap
  | fault
  deriving DecidableEq, Repr

/-- `FONT`: the 80 bytes of the sixteen glyphs, glyph d at 5*d (10_state.md R20, D7). -/
abbrev Font := Vector Byte 80

/-- The parameters an implementation fixes (00_scope.md R8). -/
structure Params where
  unmatchedPolicy : UnmatchedPolicy
  ldVxVyPresent   : Bool
  keyIndexMode    : KeyIndexMode
  aluVfOrder      : AluVfOrder
  drawCoordRead   : DrawCoordRead
  font            : Font
  indexOverflow   : IndexOverflow
  deriving DecidableEq, Repr

/-- The default glyph bytes (10_state.md R20: the conventional table, not in the source). -/
def Config.defaultFont : Font := #v[
  0xF0#8, 0x90#8, 0x90#8, 0x90#8, 0xF0#8,
  0x20#8, 0x60#8, 0x20#8, 0x20#8, 0x70#8,
  0xF0#8, 0x10#8, 0xF0#8, 0x80#8, 0xF0#8,
  0xF0#8, 0x10#8, 0xF0#8, 0x10#8, 0xF0#8,
  0x90#8, 0x90#8, 0xF0#8, 0x10#8, 0x10#8,
  0xF0#8, 0x80#8, 0xF0#8, 0x10#8, 0xF0#8,
  0xF0#8, 0x80#8, 0xF0#8, 0x90#8, 0xF0#8,
  0xF0#8, 0x10#8, 0x20#8, 0x40#8, 0x40#8,
  0xF0#8, 0x90#8, 0xF0#8, 0x90#8, 0xF0#8,
  0xF0#8, 0x90#8, 0xF0#8, 0x10#8, 0xF0#8,
  0xF0#8, 0x90#8, 0xF0#8, 0x90#8, 0x90#8,
  0xE0#8, 0x90#8, 0xE0#8, 0x90#8, 0xE0#8,
  0xF0#8, 0x80#8, 0x80#8, 0x80#8, 0xF0#8,
  0xE0#8, 0x90#8, 0x90#8, 0x90#8, 0xE0#8,
  0xF0#8, 0x80#8, 0xF0#8, 0x80#8, 0xF0#8,
  0xF0#8, 0x80#8, 0xF0#8, 0x80#8, 0x80#8]

/-- The default parameters (00_scope.md R8). DESIGN CHOICE of the spec, log 1. -/
def Config.defaultParams : Params where
  unmatchedPolicy := .stall
  ldVxVyPresent   := false
  keyIndexMode    := .lowNibble
  aluVfOrder      := .sequential
  drawCoordRead   := .latched
  font            := Config.defaultFont
  indexOverflow   := .wrap

/-- One sample of the random input: `rand_valid` and `rand_byte` (40_fetch_execute.md R77, 60_exceptions.md R131). -/
structure Draw where
  available : Bool
  byte      : Byte
  deriving DecidableEq, Repr, Inhabited

/-- The sample the random input presents at free event `n`, where none was set. FREE: any byte, available or not (60_exceptions.md R131, log 3). -/
opaque Config.freeDraw (n : Nat) : Draw

/-- The byte left at place `k` by the faulting instruction of free event `n`. FREE (60_exceptions.md R120, log 4). -/
opaque Config.freeByte (n k : Nat) : Byte

/-- The pixel left at column `x`, row `y` by the faulting draw of free event `n`. FREE (60_exceptions.md R120, log 4). -/
opaque Config.freePixel (n x y : Nat) : Bool

end Sys2Proof
end

