-- ==== Sys2Proof/Machine/State.lean ====
section
/-! DEFINITION. The state of the machine: the record of 10_state.md R13, field for field, and three fields of the model's
own (the parameters, the random input and the counter of free values). Plain data throughout. -/

namespace Sys2Proof.Machine

/-- The cells of memory that differ from what an unlisted address reads as: addresses strictly rising, all below 4096
(20_memory.md R34; `Memory.wf` in Ops.lean). -/
abbrev Memory := List Host.Cell

/-- The framebuffer, 32 rows of 64 pixels, `true` lit (10_state.md R23). -/
abbrev Framebuffer := Vector (Vector Bool 64) 32

/-- The interpreter sub-state (10_state.md R27). -/
inductive Mode where
  | running
  | awaitingKey (r : Nibble)
  deriving DecidableEq, Repr

/-- The seven fatal faults (60_exceptions.md R117), each with its `info`. The spec describes the whole of what raising one
does (R118), so a fault is TAKEN: the step answers a next state whose `fault` field holds the record, and no step of this
model answers `Host.Outcome.fault` (log 2; safe, since nothing is cut off). -/
inductive Fault where
  /-- Code 1. Raised by a fetch, DRW, LD B, LD [I] and LD Vx,[I] at an address of 4096 or more. Safe: as the spec says. -/
  | memoryBounds (address : Nat)
  /-- Code 2. Raised by CALL with 16 entries on the stack. Safe: as the spec says. -/
  | stackOverflow
  /-- Code 3. Raised by RET with an empty stack. Safe: as the spec says. -/
  | stackUnderflow
  /-- Code 4. Raised by an unmatched word under `UNMATCHED_POLICY = fault`. Safe: as the spec says. -/
  | illegalOpcode
  /-- Code 5. Raised by RND when the random source is unavailable. Safe: as the spec says. -/
  | randomSourceFailure
  /-- Code 6. Raised by ADD I, Vx past 0xFFFF under `INDEX_OVERFLOW = fault`. Safe: as the spec says. -/
  | indexOverflow
  /-- Code 7. Raised by SKP and SKNP with a register above 15 under `KEY_INDEX_MODE = fault`. Safe: as the spec says. -/
  | keyIndexRange (value : Byte)
  deriving DecidableEq, Repr

/-- The record of a fatal fault (10_state.md R26): its code and `info` (both in `cause`), the PC of the step that faulted,
and the word fetched, `none` when the fetch itself faulted. -/
structure FaultRecord where
  cause  : Fault
  pc     : Word
  opcode : Option Word
  deriving DecidableEq, Repr

/-- Why a call is refused. -/
inductive Refusal where
  /-- Raised by an arm of `exec` for an instruction with no meaning; no arm is left so. Safe. -/
  | notModelled (mnemonic : String)
  /-- Raised by the host calls `Press` and `Release` with a key above 15 (40_fetch_execute.md R75). Safe: no move, no change. -/
  | keyOutOfRange (key : Nat)
  /-- Raised by the host call `ReadV` with an index above 15 (40_fetch_execute.md R75). Safe: no move, no change. -/
  | registerOutOfRange (index : Nat)
  deriving DecidableEq, Repr

/-- The control-flow effect an instruction yields (40_fetch_execute.md R63). -/
inductive Effect where
  | noOp
  | advance                          -- the spec's `Continue`
  | awaitKey (r : Nibble)
  | skipNext
  | jump (a : Word)
  | enterSubroutine (a : Word)
  | exitSubroutine
  deriving DecidableEq, Repr

/-- The state of the machine (10_state.md R13). `params`, `rand` and `draws` are the model's own. -/
structure State where
  mem    : Memory                 -- M, as the cells that differ from the reset contents
  regs   : Vector Byte 16         -- V[0..15]
  i      : Word                   -- I
  pc     : Word                   -- PC
  dt     : Byte                   -- DT
  st     : Byte                   -- ST
  stack  : Vector Word 16         -- Stack[0..15]
  sp     : Fin 17                 -- SP, 0 to 16
  fb     : Framebuffer            -- FB
  keys   : Vector Bool 16         -- Key[0..15]
  mode   : Mode                   -- Mode
  fault  : Option FaultRecord     -- Fault
  params : Params                 -- the parameters of 00_scope.md R8; nothing writes them (log 1)
  rand   : Option Draw            -- the sample the random input presents to the next RND; none: FREE (log 3)
  draws  : Nat                    -- how many free values have been taken (log 3, log 4)
  deriving DecidableEq, Repr

/-- A framebuffer with every pixel off. -/
def clearFramebuffer : Framebuffer := Vector.replicate 32 (Vector.replicate 64 false)

/-- `Construct()` of a machine with parameters `p`: every field at its reset value (70_reset_and_hazards.md R136, R137;
10_state.md R28). Memory lists nothing: an unlisted address reads as FONT below 80 and 0 above. -/
def State.construct (p : Params) : State where
  mem    := []
  regs   := Vector.replicate 16 0#8
  i      := 0#16
  pc     := 0x200#16
  dt     := 0#8
  st     := 0#8
  stack  := Vector.replicate 16 0#16
  sp     := 0
  fb     := clearFramebuffer
  keys   := Vector.replicate 16 false
  mode   := .running
  fault  := none
  params := p
  rand   := none
  draws  := 0

/-- The machine right after reset, with the default parameters of 00_scope.md R8 (log 1). -/
def State.reset : State := State.construct Config.defaultParams

/-- How an instruction or a step ends. Every one ends in a next state. -/
abbrev Out := Host.Outcome State Fault Refusal

end Sys2Proof.Machine
end

