-- ==== Sys2Proof/Machine/Ops.lean ====
section
/-! DEFINITION. The named operations over memory, registers, framebuffer, keys and stack, the control-flow effects, and
raising a fatal fault. Everything an instruction reads or writes goes through these. -/

namespace Sys2Proof.Machine

/-! ### Memory (20_memory.md) -/

/-- The size of memory in bytes (00_scope.md R7). -/
def memSize : Nat := 4096

/-- What an unlisted address reads as: the reset contents, `FONT` below 80 and zero above (10_state.md R20). -/
def Memory.unlisted (font : Font) (a : Nat) : Byte :=
  if h : a < 80 then font[a] else 0#8

/-- The byte at an address. -/
def Memory.read (font : Font) : Memory → Nat → Byte
  | [], a => Memory.unlisted font a
  | (k, b) :: rest, a => if a = k then b else Memory.read font rest a

/-- Put a byte at an address, keeping the canonical form: a byte equal to the reset contents is not listed. -/
def Memory.write (font : Font) : Memory → Nat → Byte → Memory
  | [], a, v => if v = Memory.unlisted font a then [] else [(a, v)]
  | (k, b) :: rest, a, v =>
    if a < k then
      if v = Memory.unlisted font a then (k, b) :: rest else (a, v) :: (k, b) :: rest
    else if a = k then
      if v = Memory.unlisted font a then rest else (a, v) :: rest
    else (k, b) :: Memory.write font rest a v

/-- Every listed address is at least `lo`, below the size of memory and above the one before it, and no listed byte is
the byte an unlisted address reads as. -/
def Memory.wfFrom (font : Font) : Nat → Memory → Bool
  | _, [] => true
  | lo, (a, b) :: rest =>
    decide (lo ≤ a) && decide (a < memSize) && (b != Memory.unlisted font a) && Memory.wfFrom font (a + 1) rest

/-- The canonical form of memory. -/
def Memory.wf (font : Font) (m : Memory) : Bool := Memory.wfFrom font 0 m

/-- The byte the machine's memory holds at an address. -/
def State.byteAt (s : State) (a : Nat) : Byte := Memory.read s.params.font s.mem a

/-- Put a byte into the machine's memory, with no check. -/
def State.poke (s : State) (a : Nat) (b : Byte) : State :=
  { s with mem := Memory.write s.params.font s.mem a b }

/-- `MemRead(a, 1)` (20_memory.md R36): `a` is the unbounded address, checked when it is used. -/
def State.memRead (s : State) (a : Nat) : Except Fault Byte :=
  if a < memSize then .ok (s.byteAt a) else .error (.memoryBounds a)

/-- `MemWrite(a, 1, v)` (20_memory.md R36). -/
def State.memWrite (s : State) (a : Nat) (b : Byte) : Except Fault State :=
  if a < memSize then .ok (s.poke a b) else .error (.memoryBounds a)

/-- Store bytes at rising addresses from `a`, one `MemWrite` each, stopping at the first that faults (20_memory.md R38). -/
def State.storeBytes (s : State) (a : Nat) : List Byte → Except Fault State
  | [] => .ok s
  | b :: bs =>
    match s.memWrite a b with
    | .ok t => t.storeBytes (a + 1) bs
    | .error f => .error f

/-! ### Registers (10_state.md R14) -/

/-- `V[x]`. -/
def State.v (s : State) (x : Nibble) : Byte := s.regs[x.toNat]'(x.isLt)

/-- `V[x] <- b`. No register is hardwired. -/
def State.setV (s : State) (x : Nibble) (b : Byte) : State :=
  { s with regs := s.regs.set x.toNat b (x.isLt) }

/-- `V[k] <- MemRead(a + k, 1)` for each `k` of the list in turn (43_index_memory.md R105). -/
def State.loadRegisters (s : State) (a : Nat) : List Nat → Except Fault State
  | [] => .ok s
  | k :: ks =>
    match s.memRead (a + k) with
    | .ok b => (s.setV (BitVec.ofNat 4 k) b).loadRegisters a ks
    | .error f => .error f

/-! ### The framebuffer port (60_exceptions.md R132) -/

/-- `FB[x][y]`. -/
def pixel (fb : Framebuffer) (x : Fin 64) (y : Fin 32) : Bool := (fb.get y).get x

/-- `Toggle(px, py)`: the framebuffer with that pixel inverted. -/
def togglePixel (fb : Framebuffer) (x : Fin 64) (y : Fin 32) : Framebuffer :=
  fb.set y.val ((fb.get y).set x.val (!pixel fb x y) x.isLt) y.isLt

/-! ### The input matrix (60_exceptions.md R129, R130) -/

/-- `KeyDown(k)`, the matrix query `is_pressed(k)`. -/
def State.keyDown (s : State) (k : Nibble) : Bool := s.keys[k.toNat]'(k.isLt)

/-- `Key[k] <- down`. -/
def State.setKey (s : State) (k : Nibble) (down : Bool) : State :=
  { s with keys := s.keys.set k.toNat down (k.isLt) }

/-- The key numbers in ascending order. -/
def keyScan : List Nibble := [0, 1, 2, 3, 4, 5, 6, 7, 8, 9, 10, 11, 12, 13, 14, 15]

/-- `FirstPressed()`: the lowest key held, or none (60_exceptions.md R130). -/
def State.firstPressed (s : State) : Option Nibble := keyScan.find? (fun k => s.keyDown k)

/-! ### Fatal faults (60_exceptions.md R116 to R120) -/

/-- The code of a fault (60_exceptions.md R117). -/
def Fault.code : Fault → Nat
  | .memoryBounds _ => 1
  | .stackOverflow => 2
  | .stackUnderflow => 3
  | .illegalOpcode => 4
  | .randomSourceFailure => 5
  | .indexOverflow => 6
  | .keyIndexRange _ => 7

/-- The `info` of a fault: the out-of-range address, the register value, or none (10_state.md R26). -/
def Fault.info : Fault → Option Nat
  | .memoryBounds a => some a
  | .keyIndexRange v => some v.toNat
  | .stackOverflow | .stackUnderflow | .illegalOpcode | .randomSourceFailure | .indexOverflow => none

/-- `raise F(info)`: write the fault record; PC stays at the instruction (60_exceptions.md R118). -/
def State.raise (s : State) (opcode : Option Word) (f : Fault) : State :=
  { s with fault := some ⟨f, s.pc, opcode⟩ }

/-- The registers of the list left with free values (60_exceptions.md R120, log 4). -/
def State.freeRegisters (s : State) (ks : List Nat) : State :=
  { ks.foldl (fun t k => t.setV (BitVec.ofNat 4 k) (Config.freeByte s.draws k)) s with draws := s.draws + 1 }

/-- The bytes `a + k` for `k` of the list, as far as memory reaches, left with free values (60_exceptions.md R120, log 4). -/
def State.freeStore (s : State) (a : Nat) (ks : List Nat) : State :=
  { ks.foldl (fun t k => if a + k < memSize then t.poke (a + k) (Config.freeByte s.draws k) else t) s
    with draws := s.draws + 1 }

/-- The framebuffer of free event `n`. -/
def freeFramebuffer (n : Nat) : Framebuffer :=
  Vector.ofFn fun y => Vector.ofFn fun x => Config.freePixel n x.val y.val

/-- The framebuffer and VF left with free values (60_exceptions.md R120, log 4). -/
def State.freeDrawing (s : State) : State :=
  { ({ s with fb := freeFramebuffer s.draws } : State).setV 15 (Config.freeByte s.draws 0) with draws := s.draws + 1 }

/-! ### The stack and the control-flow effects (40_fetch_execute.md R63 to R69) -/

/-- `Apply(EnterSubroutine(a))` (40_fetch_execute.md R67). -/
def State.enterSubroutine (s : State) (opcode : Word) (a : Word) : State :=
  if h : s.sp.val < 16 then
    { s with stack := s.stack.set s.sp.val (s.pc + 2) h, sp := ⟨s.sp.val + 1, by omega⟩, pc := a }
  else s.raise (some opcode) .stackOverflow

/-- `Apply(ExitSubroutine)`: the popped entry is not cleared (40_fetch_execute.md R68). -/
def State.exitSubroutine (s : State) (opcode : Word) : State :=
  if h : 0 < s.sp.val then
    { s with sp := ⟨s.sp.val - 1, by omega⟩, pc := s.stack[s.sp.val - 1]'(by omega) }
  else s.raise (some opcode) .stackUnderflow

/-- `Apply(e)` (40_fetch_execute.md R63); `opcode` is the word of the step, for the stack faults' record. -/
def State.applyEffect (s : State) (opcode : Word) (e : Effect) : State :=
  match e with
  | .noOp => s
  | .advance => { s with pc := s.pc + 2 }
  | .awaitKey r => { s with pc := s.pc + 2, mode := .awaitingKey r }
  | .skipNext => { s with pc := s.pc + 4 }
  | .jump a => { s with pc := a }
  | .enterSubroutine a => s.enterSubroutine opcode a
  | .exitSubroutine => s.exitSubroutine opcode

/-- The step of an unmatched word (40_fetch_execute.md R71). -/
def State.unmatched (s : State) (w : Word) : State :=
  match s.params.unmatchedPolicy with
  | .stall => s.applyEffect w .noOp
  | .advance => s.applyEffect w .advance
  | .fault => s.raise (some w) .illegalOpcode

/-- The end of an instruction that raised nothing: its effect is applied (40_fetch_execute.md R62). -/
def State.complete (s : State) (i : Instr) (e : Effect) : Out := .next (s.applyEffect (encode i) e)

/-- The end of an instruction that raised a fault: its effect is not applied (60_exceptions.md R118). -/
def State.abort (s : State) (i : Instr) (f : Fault) : Out := .next (s.raise (some (encode i)) f)

/-! ### Fetch (40_fetch_execute.md R61) -/

/-- The big-endian word at PC and PC + 1, the byte at PC read first. -/
def State.fetch (s : State) : Except Fault Word :=
  match s.memRead s.pc.toNat with
  | .error f => .error f
  | .ok hi =>
    match s.memRead (s.pc.toNat + 1) with
    | .error f => .error f
    | .ok lo => .ok (wordOfBytes hi lo)

/-! ### The random source (60_exceptions.md R131) -/

/-- What the random input presents: the sample set on it, else a free value (40_fetch_execute.md R77, log 3). -/
def State.sample (s : State) : Draw := s.rand.getD (Config.freeDraw s.draws)

/-- The state after one draw: the sample is used up, and the next one is free. -/
def State.nextDraw (s : State) : State := { s with rand := none, draws := s.draws + 1 }

/-- `Rand()`: one sample of the random input. -/
def State.drawByte (s : State) : Except Fault Byte :=
  if s.sample.available then .ok s.sample.byte else .error .randomSourceFailure

end Sys2Proof.Machine
end

