-- ==== Sys2Proof/Machine/Operands.lean ====
section
/-! DEFINITION. The operand forms: effective addresses, computed targets, key numbers, sprite pixels, digits. Addresses
and sums are exact natural numbers until they are used or stored (00_scope.md R10). -/

namespace Sys2Proof.Machine

/-- The effective address of byte `k`, `I + k`, exact and unbounded (43_index_memory.md). -/
def State.indexed (s : State) (k : Nat) : Nat := s.i.toNat + k

/-- A 12-bit address as a target, `zext_16(nnn)` (30_encoding.md R52). -/
def zextAddr (nnn : Addr) : Word := nnn.setWidth 16

/-- The target of `JP V0, nnn`: the exact sum, not masked to 12 bits (41_control_flow.md R85). -/
def offsetTarget (nnn : Addr) (v0 : Byte) : Word := BitVec.ofNat 16 (nnn.toNat + v0.toNat)

/-- The address of a glyph, `Vx * 5`, with no mask (43_index_memory.md R102). -/
def glyphAddress (v : Byte) : Word := BitVec.ofNat 16 (v.toNat * 5)

/-- `KeyIndex(v)` (45_input_timers.md R109). -/
def keyIndex (mode : KeyIndexMode) (v : Byte) : Except Fault Nibble :=
  match mode with
  | .lowNibble => .ok (v.extractLsb' 0 4)
  | .fault => if 15 < v.toNat then .error (.keyIndexRange v) else .ok (v.extractLsb' 0 4)

/-- The decimal digits of a byte, most significant first (43_index_memory.md R103). -/
def decimalDigits (v : Byte) : List Byte :=
  [BitVec.ofNat 8 (v.toNat / 100), BitVec.ofNat 8 (v.toNat / 10 % 10), BitVec.ofNat 8 (v.toNat % 10)]

/-- The register numbers `0 .. x`, inclusive (43_index_memory.md R104, R105). -/
def registersTo (x : Nibble) : List Nat := List.range (x.toNat + 1)

/-- The values of `V[0] .. V[x]`. -/
def State.valuesTo (s : State) (x : Nibble) : List Byte := (registersTo x).map fun k => s.v (BitVec.ofNat 4 k)

/-- Whether column `c` of a sprite row is set: bit 7 is column 0 (44_display.md R107, D6). -/
def spriteBit (b : Byte) (c : Nat) : Bool := b.getLsbD (7 - c)

/-- The pixel column of sprite column `c`, wrapped (44_display.md R107). -/
def pixelColumn (xs : Byte) (c : Nat) : Fin 64 := ⟨(xs.toNat + c) % 64, Nat.mod_lt _ (by decide)⟩

/-- The pixel row of sprite row `r`, wrapped (44_display.md R107). -/
def pixelRow (ys : Byte) (r : Nat) : Fin 32 := ⟨(ys.toNat + r) % 32, Nat.mod_lt _ (by decide)⟩

end Sys2Proof.Machine
end

