-- ==== Sys2Proof/Machine/Flags.lean ====
section
/-! DEFINITION. The flag computations: VF is the only flag (10_state.md R15). -/

namespace Sys2Proof.Machine

/-- The register number of VF. -/
def vf : Nibble := 15

/-- A condition as a flag byte. -/
def flagOf (c : Bool) : Byte := if c then 1#8 else 0#8

/-- The carry of an unsigned byte sum: 1 exactly when it exceeds 255 (42_alu.md R94). -/
def carryFlag (a b : Byte) : Byte := flagOf (decide (255 < a.toNat + b.toNat))

/-- The not-borrow flag of `a - b`: 1 exactly when `a > b`, strictly (42_alu.md R86, R95). -/
def notBorrowFlag (a b : Byte) : Byte := flagOf (decide (b.toNat < a.toNat))

/-- `sat(a - b)`: the difference, or 0 where it would be negative (42_alu.md R86). -/
def satSub (a b : Byte) : Byte := BitVec.ofNat 8 (a.toNat - b.toNat)

/-- The bit a right shift moves out (42_alu.md R96). -/
def lowBit (a : Byte) : Byte := a &&& 1#8

/-- The bit a left shift moves out (42_alu.md R98). -/
def highBit (a : Byte) : Byte := a >>> 7

/-- Write a flag to VF and a result to `V[x]`, both computed from `V[x]` and `V[y]`, in the order `ALU_VF_ORDER` says
(42_alu.md R87): under `sequential` the flag is written first and the result reads the registers as they then stand. -/
def State.writeFlagged (s : State) (x y : Nibble) (flag result : Byte → Byte → Byte) : State :=
  match s.params.aluVfOrder with
  | .sequential =>
    let t := s.setV vf (flag (s.v x) (s.v y))
    t.setV x (result (t.v x) (t.v y))
  | .flagLast => (s.setV x (result (s.v x) (s.v y))).setV vf (flag (s.v x) (s.v y))

end Sys2Proof.Machine
end

