-- ==== Sys2Proof/Machine/Alu.lean ====
section
/-! DEFINITION. The ALU and register instructions (42_alu.md R86 to R99). -/

namespace Sys2Proof.Machine

/-- `LD Vx, kk` (42_alu.md R88). -/
def execLdImm (x : Nibble) (kk : Byte) (s : State) : Out := (s.setV x kk).complete (.ldImm x kk) .advance

/-- `ADD Vx, kk`: modulo 256, no flag (42_alu.md R89). -/
def execAddImm (x : Nibble) (kk : Byte) (s : State) : Out := (s.setV x (s.v x + kk)).complete (.addImm x kk) .advance

/-- `LD Vx, Vy`: a copy where the machine has the row, else an unmatched word (42_alu.md R90, D2). -/
def execLdReg (x y : Nibble) (s : State) : Out :=
  if s.params.ldVxVyPresent then (s.setV x (s.v y)).complete (.ldReg x y) .advance
  else .next (s.unmatched (encode (.ldReg x y)))

/-- `OR Vx, Vy` (42_alu.md R91). -/
def execOrReg (x y : Nibble) (s : State) : Out := (s.setV x (s.v x ||| s.v y)).complete (.orReg x y) .advance

/-- `AND Vx, Vy` (42_alu.md R92). -/
def execAndReg (x y : Nibble) (s : State) : Out := (s.setV x (s.v x &&& s.v y)).complete (.andReg x y) .advance

/-- `XOR Vx, Vy` (42_alu.md R93). -/
def execXorReg (x y : Nibble) (s : State) : Out := (s.setV x (s.v x ^^^ s.v y)).complete (.xorReg x y) .advance

/-- `ADD Vx, Vy`: the sum is taken first, then `V[x]` is written, then the carry, under both orders (42_alu.md R94). -/
def execAddReg (x y : Nibble) (s : State) : Out :=
  ((s.setV x (s.v x + s.v y)).setV vf (carryFlag (s.v x) (s.v y))).complete (.addReg x y) .advance

/-- `SUB Vx, Vy`: `Vx - Vy`, saturating (42_alu.md R95). -/
def execSubReg (x y : Nibble) (s : State) : Out :=
  (s.writeFlagged x y notBorrowFlag satSub).complete (.subReg x y) .advance

/-- `SHR Vx`: `y` is ignored (42_alu.md R96). -/
def execShr (x y : Nibble) (s : State) : Out :=
  (s.writeFlagged x x (fun a _ => lowBit a) (fun a _ => a >>> 1)).complete (.shr x y) .advance

/-- `SUBN Vx, Vy`: `Vy - Vx`, saturating (42_alu.md R97). -/
def execSubnReg (x y : Nibble) (s : State) : Out :=
  (s.writeFlagged x y (fun a b => notBorrowFlag b a) (fun a b => satSub b a)).complete (.subnReg x y) .advance

/-- `SHL Vx`: `y` is ignored (42_alu.md R98). -/
def execShl (x y : Nibble) (s : State) : Out :=
  (s.writeFlagged x x (fun a _ => highBit a) (fun a _ => a <<< 1)).complete (.shl x y) .advance

/-- `RND Vx, kk`: one draw, which may fail, masked by the immediate (42_alu.md R99). -/
def execRnd (x : Nibble) (kk : Byte) (s : State) : Out :=
  .next (
    match s.drawByte with
    | .ok r => (s.nextDraw.setV x (r &&& kk)).applyEffect (encode (.rnd x kk)) .advance
    | .error f => s.nextDraw.raise (some (encode (.rnd x kk))) f)

end Sys2Proof.Machine
end

