-- ==== Sys2Proof/Machine/Control.lean ====
section
/-! DEFINITION. The control-flow instructions (41_control_flow.md R78 to R85). -/

namespace Sys2Proof.Machine

/-- The effect of a skip instruction: SkipNext when its condition holds, Continue otherwise (40_fetch_execute.md R64, R65). -/
def skipIf (c : Bool) : Effect := if c then .skipNext else .advance

/-- `RET` (41_control_flow.md R78). -/
def execRet (s : State) : Out := s.complete .ret .exitSubroutine

/-- `JP nnn` (41_control_flow.md R79). -/
def execJp (nnn : Addr) (s : State) : Out := s.complete (.jp nnn) (.jump (zextAddr nnn))

/-- `CALL nnn` (41_control_flow.md R80). -/
def execCall (nnn : Addr) (s : State) : Out := s.complete (.call nnn) (.enterSubroutine (zextAddr nnn))

/-- `SE Vx, kk` (41_control_flow.md R81). -/
def execSeImm (x : Nibble) (kk : Byte) (s : State) : Out := s.complete (.seImm x kk) (skipIf (s.v x == kk))

/-- `SNE Vx, kk` (41_control_flow.md R82). -/
def execSneImm (x : Nibble) (kk : Byte) (s : State) : Out := s.complete (.sneImm x kk) (skipIf (s.v x != kk))

/-- `SE Vx, Vy` (41_control_flow.md R83). -/
def execSeReg (x y : Nibble) (s : State) : Out := s.complete (.seReg x y) (skipIf (s.v x == s.v y))

/-- `SNE Vx, Vy` (41_control_flow.md R84). -/
def execSneReg (x y : Nibble) (s : State) : Out := s.complete (.sneReg x y) (skipIf (s.v x != s.v y))

/-- `JP V0, nnn`: the offset register is always V0 (41_control_flow.md R85). -/
def execJpV0 (nnn : Addr) (s : State) : Out := s.complete (.jpV0 nnn) (.jump (offsetTarget nnn (s.v 0)))

end Sys2Proof.Machine
end

