-- ==== Sys2Proof/Machine/Display.lean ====
section
/-! DEFINITION. The display instructions (44_display.md R106, R107). -/

namespace Sys2Proof.Machine

/-- The state a draw's loop changes: the framebuffer and VF. -/
structure Canvas where
  fb : Framebuffer
  vf : Byte
  deriving DecidableEq, Repr

/-- `V[x]` as the draw's loop sees it under `live`: VF is the loop's own (44_display.md R107). -/
def State.liveV (s : State) (x : Nibble) (flag : Byte) : Byte := if x = vf then flag else s.v x

/-- The start column and row, as a function of the loop's VF: read once before VF is reset under `latched`, read again at
each pixel under `live` (44_display.md R107, D5). -/
def State.drawStart (s : State) (x y : Nibble) (flag : Byte) : Byte × Byte :=
  match s.params.drawCoordRead with
  | .latched => (s.v x, s.v y)
  | .live => (s.liveV x flag, s.liveV y flag)

/-- Toggle one pixel; VF is set when it was on (44_display.md R107). -/
def Canvas.toggleAt (cv : Canvas) (px : Fin 64) (py : Fin 32) : Canvas :=
  { fb := togglePixel cv.fb px py, vf := if pixel cv.fb px py then 1#8 else cv.vf }

/-- Draw the listed columns of the sprite row `b`, row `r` of the sprite, left to right. -/
def Canvas.drawColumns (start : Byte → Byte × Byte) (r : Nat) (b : Byte) : List Nat → Canvas → Canvas
  | [], cv => cv
  | c :: cs, cv =>
    if spriteBit b c then
      Canvas.drawColumns start r b cs
        (cv.toggleAt (pixelColumn (start cv.vf).1 c) (pixelRow (start cv.vf).2 r))
    else Canvas.drawColumns start r b cs cv

/-- Draw the listed rows, top to bottom; each reads its byte of the sprite, which may fault. -/
def State.drawRows (s : State) (start : Byte → Byte × Byte) : List Nat → Canvas → Except Fault Canvas
  | [], cv => .ok cv
  | r :: rs, cv =>
    match s.memRead (s.indexed r) with
    | .ok b => s.drawRows start rs (cv.drawColumns start r b (List.range 8))
    | .error f => .error f

/-- `CLS` (44_display.md R106). -/
def execCls (s : State) : Out := ({ s with fb := clearFramebuffer } : State).complete .cls .advance

/-- `DRW Vx, Vy, n`: VF is reset before the loop and set by every pixel that goes off; a draw that faults leaves FB and VF
with free values (44_display.md R107, 60_exceptions.md R120). -/
def execDrw (x y n : Nibble) (s : State) : Out :=
  match s.drawRows (s.drawStart x y) (List.range n.toNat) ⟨s.fb, 0#8⟩ with
  | .ok cv => (({ s with fb := cv.fb } : State).setV vf cv.vf).complete (.drw x y n) .advance
  | .error f => s.freeDrawing.abort (.drw x y n) f

end Sys2Proof.Machine
end

