-- ==== Sys2Proof/Machine/Index.lean ====
section
/-! DEFINITION. The index register and the memory transfers (43_index_memory.md R100 to R105). None of the transfers
changes I. A transfer that faults leaves what it writes with free values (60_exceptions.md R120, log 4). -/

namespace Sys2Proof.Machine

/-- `LD I, nnn` (43_index_memory.md R100). -/
def execLdI (nnn : Addr) (s : State) : Out :=
  ({ s with i := zextAddr nnn } : State).complete (.ldI nnn) .advance

/-- `ADD I, Vx`: past 0xFFFF it wraps or faults as `INDEX_OVERFLOW` says; no flag (43_index_memory.md R101). -/
def execAddIVx (x : Nibble) (s : State) : Out :=
  let sum := s.i.toNat + (s.v x).toNat
  if 0xFFFF < sum then
    match s.params.indexOverflow with
    | .wrap => ({ s with i := BitVec.ofNat 16 (sum % 65536) } : State).complete (.addIVx x) .advance
    | .fault => s.abort (.addIVx x) .indexOverflow
  else ({ s with i := BitVec.ofNat 16 sum } : State).complete (.addIVx x) .advance

/-- `LD F, Vx` (43_index_memory.md R102). -/
def execLdFVx (x : Nibble) (s : State) : Out :=
  ({ s with i := glyphAddress (s.v x) } : State).complete (.ldFVx x) .advance

/-- `LD B, Vx`: hundreds, tens and ones at I, I + 1, I + 2 (43_index_memory.md R103). -/
def execLdBVx (x : Nibble) (s : State) : Out :=
  match s.storeBytes (s.indexed 0) (decimalDigits (s.v x)) with
  | .ok t => t.complete (.ldBVx x) .advance
  | .error f => (s.freeStore (s.indexed 0) (List.range 3)).abort (.ldBVx x) f

/-- `LD [I], Vx`: V0 to Vx, inclusive, to memory from I (43_index_memory.md R104). -/
def execLdMemVx (x : Nibble) (s : State) : Out :=
  match s.storeBytes (s.indexed 0) (s.valuesTo x) with
  | .ok t => t.complete (.ldMemVx x) .advance
  | .error f => (s.freeStore (s.indexed 0) (registersTo x)).abort (.ldMemVx x) f

/-- `LD Vx, [I]`: V0 to Vx, inclusive, from memory at I (43_index_memory.md R105). -/
def execLdVxMem (x : Nibble) (s : State) : Out :=
  match s.loadRegisters (s.indexed 0) (registersTo x) with
  | .ok t => t.complete (.ldVxMem x) .advance
  | .error f => (s.freeRegisters (registersTo x)).abort (.ldVxMem x) f

end Sys2Proof.Machine
end

