-- ==== Sys2Proof/Machine/Input.lean ====
section
/-! DEFINITION. The input and timer instructions (45_input_timers.md R109 to R114). -/

namespace Sys2Proof.Machine

/-- `SKP Vx` (45_input_timers.md R109). -/
def execSkp (x : Nibble) (s : State) : Out :=
  match keyIndex s.params.keyIndexMode (s.v x) with
  | .ok k => s.complete (.skp x) (skipIf (s.keyDown k))
  | .error f => s.abort (.skp x) f

/-- `SKNP Vx` (45_input_timers.md R110). -/
def execSknp (x : Nibble) (s : State) : Out :=
  match keyIndex s.params.keyIndexMode (s.v x) with
  | .ok k => s.complete (.sknp x) (skipIf (!s.keyDown k))
  | .error f => s.abort (.sknp x) f

/-- `LD Vx, DT` (45_input_timers.md R111). -/
def execLdVxDt (x : Nibble) (s : State) : Out := (s.setV x s.dt).complete (.ldVxDt x) .advance

/-- `LD Vx, K`: the wait begins; the key is written by the step that ends it (45_input_timers.md R112). -/
def execLdVxK (x : Nibble) (s : State) : Out := s.complete (.ldVxK x) (.awaitKey x)

/-- `LD DT, Vx` (45_input_timers.md R113). -/
def execLdDtVx (x : Nibble) (s : State) : Out := ({ s with dt := s.v x } : State).complete (.ldDtVx x) .advance

/-- `LD ST, Vx` (45_input_timers.md R114). -/
def execLdStVx (x : Nibble) (s : State) : Out := ({ s with st := s.v x } : State).complete (.ldStVx x) .advance

end Sys2Proof.Machine
end

