-- ==== Sys2Proof/Machine/Interpreter.lean ====
section
/-! DEFINITION. The step state machine (40_fetch_execute.md R60 to R62, R70, R71) and the placing of a word where the next
step fetches it. -/

namespace Sys2Proof.Machine

/-- `Execute(w)`: the instruction the word decodes to, or the policy for an unmatched word (40_fetch_execute.md R62, R71). -/
def executeWord (w : Word) (s : State) : Out :=
  match decodeWord w with
  | some i => exec i s
  | none => .next (s.unmatched w)

/-- `RunningStep()`: a fetch that faults records no opcode (40_fetch_execute.md R61). -/
def runningStep (s : State) : Out :=
  match s.fetch with
  | .ok w => executeWord w s
  | .error f => .next (s.raise none f)

/-- `AwaitingStep(r)`: with no key held nothing changes; else the lowest key goes to `V[r]`, the wait ends, and the word
at PC is fetched and executed in this same step (40_fetch_execute.md R70, C1). -/
def awaitingStep (r : Nibble) (s : State) : Out :=
  match s.firstPressed with
  | none => .next s
  | some k => runningStep { s.setV r (k.setWidth 8) with mode := .running }

/-- `Step()`: a halted machine stays as it is (40_fetch_execute.md R60, 60_exceptions.md R119). -/
def interpreterStep (s : State) : Out :=
  match s.fault with
  | some _ => .next s
  | none =>
    match s.mode with
    | .running => runningStep s
    | .awaitingKey r => awaitingStep r s

/-- The state with bytes stored at rising addresses from `a`. -/
def State.pokeBytes (s : State) (a : Nat) : List Byte → State
  | [] => s
  | b :: bs => (s.poke a b).pokeBytes (a + 1) bs

/-- The machine about to fetch the word `w`: not halted, not waiting, its PC where two bytes can be fetched, and the word
stored there high byte first (log 7). -/
def State.placeWord (s : State) (w : Word) : State :=
  let t : State := { s with
    fault := none
    mode := .running
    pc := if s.pc.toNat + 1 < memSize then s.pc else 0x200#16 }
  t.pokeBytes t.pc.toNat (bytesOfWord w)

end Sys2Proof.Machine
end

