-- ==== Sys2Proof/Machine/Step.lean ====
section
/-! DEFINITION. One step, and a word placed where the next step fetches it. -/

namespace Sys2Proof.Machine

/-- One `Step()` (40_fetch_execute.md R60). -/
def step : State → Host.Outcome State Fault Refusal := interpreterStep

/-- `s` with the instruction whose bits are `w`, numbered as spec/opcode_table.json numbers them, where `step` fetches next. -/
def State.withFetchWord (s : State) (nbits w : Nat) : State := s.placeWord (tableWord nbits w)

end Sys2Proof.Machine
end

