-- ==== Sys2Proof/Machine/Embedder.lean ====
section
/-! DEFINITION. The entry points of the host interface (40_fetch_execute.md R73 to R77): the commands, the frame, the load,
the key calls, the reset, the histories of calls, and the read-only accessors. -/

namespace Sys2Proof.Machine

/-- A command of the block's command port (40_fetch_execute.md R77). -/
inductive Command where
  | reset
  | load (image : List Byte)
  | step
  | frame
  | press (key : Nat)
  | release (key : Nat)
  | releaseAll
  deriving DecidableEq, Repr

/-- The result of `Step` and `Frame` (40_fetch_execute.md R60, R73; 60_exceptions.md R122). -/
inductive StepResult where
  | ok
  | failed (record : FaultRecord)
  deriving DecidableEq, Repr

/-- The result a call that leaves the machine in `s` returns. -/
def State.result (s : State) : StepResult :=
  match s.fault with
  | none => .ok
  | some record => .failed record

/-- The steps of a frame (00_scope.md R7). -/
def stepsPerFrame : Nat := 8

/-- `DelayTick()` (60_exceptions.md R127). -/
def State.delayTick (s : State) : State :=
  if s.dt = 0#8 then s else { s with dt := s.dt - 1 }

/-- At most `n` steps, ending when the machine is halted (40_fetch_execute.md R73). -/
def burst : Nat → State → Out
  | 0, s => .next s
  | n + 1, s =>
    match s.fault with
    | some _ => .next s
    | none =>
      match step s with
      | .next t => burst n t
      | .fault f => .fault f
      | .refused r => .refused r

/-- `Frame()`: a halted machine does nothing, not even the tick (40_fetch_execute.md R73). -/
def frame (s : State) : Out :=
  match s.fault with
  | some _ => .next s
  | none => burst stepsPerFrame s.delayTick

/-- The load offset (00_scope.md R7). -/
def progBase : Nat := 512

/-- Bytes placed at rising addresses from `a`; those past the end of memory are dropped (20_memory.md R42). -/
def State.loadFrom (s : State) (a : Nat) : List Byte → State
  | [] => s
  | b :: bs => (if a < memSize then s.poke a b else s).loadFrom (a + 1) bs

/-- `Load(b)`: memory only (20_memory.md R42, 70_reset_and_hazards.md R139). -/
def State.load (s : State) (image : List Byte) : State := s.loadFrom progBase image

/-- `Reset()`: every field of the spec's record at its reset value (70_reset_and_hazards.md R136). The parameters are
fixed for the machine, and the random input and the count of free values are no state of the block, so a draw after a
reset is a new one (log 3). -/
def State.resetAgain (s : State) : State :=
  { State.construct s.params with rand := s.rand, draws := s.draws }

/-- `ReleaseAll()` (60_exceptions.md R129). -/
def State.releaseAll (s : State) : State := { s with keys := Vector.replicate 16 false }

/-- One command, run to completion (40_fetch_execute.md R74). A key above 15 is refused: no move (R75). -/
def perform (c : Command) (s : State) : Out :=
  match c with
  | .reset => .next s.resetAgain
  | .load image => .next (s.load image)
  | .step => step s
  | .frame => frame s
  | .press key => if key < 16 then .next (s.setKey (BitVec.ofNat 4 key) true) else .refused (.keyOutOfRange key)
  | .release key => if key < 16 then .next (s.setKey (BitVec.ofNat 4 key) false) else .refused (.keyOutOfRange key)
  | .releaseAll => .next s.releaseAll

/-- The call keeps the embedder's contract: a key it names is in 0 to 15 (40_fetch_execute.md R75). -/
def Command.legal (c : Command) : Bool :=
  match c with
  | .press key | .release key => decide (key < 16)
  | .reset | .load _ | .step | .frame | .releaseAll => true

/-- A history: the calls the embedder makes, in its order, at no rate (70_reset_and_hazards.md R148). -/
abbrev History := List Command

/-- The machine's run of a history, the sequence of entry-point calls that a model takes as its input: each call is run to
completion before the next (20_memory.md R43, 70_reset_and_hazards.md R148). A refused call is no move (R75): there the
run ends. -/
def runHistory : History → State → Out
  | [], s => .next s
  | c :: rest, s =>
    match perform c s with
    | .next t => runHistory rest t
    | .fault f => .fault f
    | .refused r => .refused r

/-- A history of a new machine with parameters `p`, from its construction on (70_reset_and_hazards.md R137, R148). -/
def runFromConstruct (p : Params) (calls : History) : Out := runHistory calls (State.construct p)

/-- `ReadV(i)`: an index above 15 is refused (40_fetch_execute.md R75, R76). -/
def State.readV (s : State) (index : Nat) : Except Refusal Byte :=
  if index < 16 then .ok (s.v (BitVec.ofNat 4 index)) else .error (.registerOutOfRange index)

/-- `ReadI()`. -/
def State.readI (s : State) : Word := s.i

/-- `ReadPC()`. -/
def State.readPC (s : State) : Word := s.pc

/-- `Framebuffer()`: the grid, row-major, `grid[y*64 + x] = FB[x][y]` (40_fetch_execute.md R76, D21). -/
def State.framebuffer (s : State) : List Bool := s.fb.toList.flatMap Vector.toList

/-- `ReadFault()`. -/
def State.readFault (s : State) : Option FaultRecord := s.fault

end Sys2Proof.Machine
end

