-- ==== Sys2Proof/WellFormed.lean ====
section
/-! DEFINITION. Which instructions a machine has. The operand widths are in the types of Syntax.lean, so no operand can
be out of range; the one check left is row 10 of the opcode map, which exists only under a parameter (30_encoding.md R54). -/

namespace Sys2Proof

/-- The instruction's row exists on a machine with parameters `p`: all rows but `8xy0` always do, and `8xy0` exists
when `LD_VX_VY_PRESENT` is true (30_encoding.md R54, 42_alu.md R90). -/
def Instr.wellFormed (p : Params) (i : Instr) : Bool :=
  match i with
  | .ldReg _ _ => p.ldVxVyPresent
  | .cls | .ret | .jp _ | .call _ | .seImm _ _ | .sneImm _ _ | .seReg _ _ | .ldImm _ _ | .addImm _ _
  | .orReg _ _ | .andReg _ _ | .xorReg _ _ | .addReg _ _ | .subReg _ _ | .shr _ _ | .subnReg _ _ | .shl _ _
  | .sneReg _ _ | .ldI _ | .jpV0 _ | .rnd _ _ | .drw _ _ _ | .skp _ | .sknp _ | .ldVxDt _ | .ldVxK _
  | .ldDtVx _ | .ldStVx _ | .addIVx _ | .ldFVx _ | .ldBVx _ | .ldMemVx _ | .ldVxMem _ => true

end Sys2Proof
end

