-- ==== Sys2Proof/Safety.lean ====
section
/-! DEFINITION. The terms claims are stated in: the invariant of the machine, and what two states share. -/

namespace Sys2Proof.Machine

/-- The machine is halted by a fatal fault (60_exceptions.md R119). -/
def State.Halted (s : State) : Prop := s.fault.isSome = true

/-- The canonical form of the machine's memory holds (every listed address below 4096, strictly rising, no listed byte
equal to the reset contents). -/
def State.MemWf (s : State) : Prop := Memory.wf s.params.font s.mem = true

/-- The invariant: memory is canonical, `PC <= 0x10FE` (40_fetch_execute.md R72), every stack entry is at most 4096
(10_state.md R21), and a fault record names the PC the machine stopped at (60_exceptions.md R118). -/
structure State.Inv (s : State) : Prop where
  memory   : s.MemWf
  pcBound  : s.pc.toNat ≤ 0x10FE
  returns  : ∀ k : Fin 16, (s.stack.get k).toNat ≤ 4096
  faultPc  : ∀ f : FaultRecord, s.fault = some f → f.pc = s.pc

/-- The fields of the state record of 10_state.md R13, and `free`, the model's own random input and count of free values. -/
inductive Field where
  | m | v | i | pc | dt | st | stack | sp | fb | keys | mode | fault | free
  deriving DecidableEq, Repr

/-- `t` holds in a field what `s` holds; memory is compared byte by byte, the registers one by one. -/
def State.AgreeOn (s t : State) : Field → Prop
  | .m => ∀ a : Nat, t.byteAt a = s.byteAt a
  | .v => ∀ r : Nibble, t.v r = s.v r
  | .i => t.i = s.i
  | .pc => t.pc = s.pc
  | .dt => t.dt = s.dt
  | .st => t.st = s.st
  | .stack => t.stack = s.stack
  | .sp => t.sp = s.sp
  | .fb => t.fb = s.fb
  | .keys => t.keys = s.keys
  | .mode => t.mode = s.mode
  | .fault => t.fault = s.fault
  | .free => t.rand = s.rand ∧ t.draws = s.draws

/-- `t` has every field of `s` but, perhaps, those listed; the parameters are the same too. -/
def State.SameBut (s t : State) (changed : List Field) : Prop :=
  t.params = s.params ∧ ∀ f : Field, f ∉ changed → s.AgreeOn t f

/-- `t` is `s` halted by fault `f` of the instruction word `w`: the record names the cause, the PC of the step and the
word, and the PC has not moved (60_exceptions.md R118). -/
def State.HaltedBy (s t : State) (f : Fault) (w : Word) : Prop :=
  t.fault = some ⟨f, s.pc, some w⟩ ∧ t.pc = s.pc

/-- Sprite row `r` has column `c` set, the sprite lying at I (44_display.md R107: bit 7 is column 0). -/
def State.SpriteAt (s : State) (r c : Nat) : Prop := (s.byteAt (s.i.toNat + r)).getLsbD (7 - c) = true

/-- Pixel `(px, py)` is one of those the sprite of `n` rows at I covers when drawn at `(xs, ys)`: the set S of
44_display.md R108. -/
def State.Covers (s : State) (xs ys : Byte) (n : Nat) (px : Fin 64) (py : Fin 32) : Prop :=
  ∃ r c : Nat, r < n ∧ c < 8 ∧ s.SpriteAt r c ∧ px.val = (xs.toNat + c) % 64 ∧ py.val = (ys.toNat + r) % 32

/-- The sprite positions of `n` rows in the order of the loop: rows top to bottom, columns left to right (44_display.md R107). -/
def drawOrder (n : Nat) : List (Nat × Nat) :=
  (List.range n).flatMap fun r => (List.range 8).map fun c => (r, c)

/-- One turn of the drawing loop as 44_display.md R107 writes it, on the framebuffer and VF: the column and row come from
the registers before the draw, but VF's current value stands for register 15 under `live`. -/
def State.drawTurn (s : State) (x y : Nibble) (now : Framebuffer × Byte) (pos : Nat × Nat) : Framebuffer × Byte :=
  let live := s.params.drawCoordRead = .live
  let xs := if live ∧ x = 15 then now.2 else s.v x
  let ys := if live ∧ y = 15 then now.2 else s.v y
  let px : Fin 64 := ⟨(xs.toNat + pos.2) % 64, Nat.mod_lt _ (by decide)⟩
  let py : Fin 32 := ⟨(ys.toNat + pos.1) % 32, Nat.mod_lt _ (by decide)⟩
  if (s.byteAt (s.i.toNat + pos.1)).getLsbD (7 - pos.2) = true then
    (togglePixel now.1 px py, if pixel now.1 px py = true then 1#8 else now.2)
  else now

/-- The instructions whose effect is always Continue when they raise nothing (40_fetch_execute.md R64); `8xy0` where the
machine has it. -/
def AlwaysContinues (p : Params) (i : Instr) : Prop :=
  match i with
  | .ldReg _ _ => p.ldVxVyPresent = true
  | .cls | .ldImm _ _ | .addImm _ _ | .orReg _ _ | .andReg _ _ | .xorReg _ _ | .addReg _ _ | .subReg _ _ | .shr _ _
  | .subnReg _ _ | .shl _ _ | .ldI _ | .rnd _ _ | .drw _ _ _ | .ldVxDt _ | .ldDtVx _ | .ldStVx _ | .addIVx _
  | .ldFVx _ | .ldBVx _ | .ldMemVx _ | .ldVxMem _ => True
  | .ret | .jp _ | .call _ | .seImm _ _ | .sneImm _ _ | .seReg _ _ | .sneReg _ _ | .jpV0 _ | .skp _ | .sknp _
  | .ldVxK _ => False

/-- The condition of a skip instruction: `some` truth value for a skip instruction whose key number, if it has one, is in
range, and `none` for every other (41_control_flow.md R81 to R84, 45_input_timers.md R109, R110). -/
def State.skipCondition (s : State) (i : Instr) : Option Bool :=
  let keyNumber (x : Nibble) : Option Nibble :=
    if s.params.keyIndexMode = .fault ∧ 15 < (s.v x).toNat then none else some ((s.v x).setWidth 4)
  match i with
  | .seImm x kk => some (decide (s.v x = kk))
  | .sneImm x kk => some (decide (s.v x ≠ kk))
  | .seReg x y => some (decide (s.v x = s.v y))
  | .sneReg x y => some (decide (s.v x ≠ s.v y))
  | .skp x => (keyNumber x).map fun k => s.keyDown k
  | .sknp x => (keyNumber x).map fun k => !s.keyDown k
  | .cls | .ret | .jp _ | .call _ | .ldImm _ _ | .addImm _ _ | .ldReg _ _ | .orReg _ _ | .andReg _ _ | .xorReg _ _
  | .addReg _ _ | .subReg _ _ | .shr _ _ | .subnReg _ _ | .shl _ _ | .ldI _ | .jpV0 _ | .rnd _ _ | .drw _ _ _
  | .ldVxDt _ | .ldVxK _ | .ldDtVx _ | .ldStVx _ | .addIVx _ | .ldFVx _ | .ldBVx _ | .ldMemVx _ | .ldVxMem _ => none

/-- The registers an instruction may write (10_state.md R30): its destination, VF as a flag, or V0 to Vx. -/
def MayWrite (i : Instr) (r : Nibble) : Prop :=
  match i with
  | .ldImm x _ | .addImm x _ | .ldReg x _ | .orReg x _ | .andReg x _ | .xorReg x _ | .rnd x _ | .ldVxDt x => r = x
  | .addReg x _ | .subReg x _ | .shr x _ | .subnReg x _ | .shl x _ => r = x ∨ r = 15
  | .drw _ _ _ => r = 15
  | .ldVxMem x => r.toNat ≤ x.toNat
  | .cls | .ret | .jp _ | .call _ | .seImm _ _ | .sneImm _ _ | .seReg _ _ | .sneReg _ _ | .ldI _ | .jpV0 _ | .skp _
  | .sknp _ | .ldVxK _ | .ldDtVx _ | .ldStVx _ | .addIVx _ | .ldFVx _ | .ldBVx _ | .ldMemVx _ => False

/-- The instruction class that may raise a fault, with what holds of its `info` (60_exceptions.md R117). -/
def Fault.RaisedBy (f : Fault) (i : Instr) (s : State) : Prop :=
  match f with
  | .memoryBounds a =>
    4096 ≤ a ∧ ((∃ x y n, i = .drw x y n) ∨ (∃ x, i = .ldBVx x) ∨ (∃ x, i = .ldMemVx x) ∨ (∃ x, i = .ldVxMem x))
  | .stackOverflow => s.sp.val = 16 ∧ ∃ nnn, i = .call nnn
  | .stackUnderflow => s.sp.val = 0 ∧ i = .ret
  | .illegalOpcode =>
    s.params.unmatchedPolicy = .fault ∧ s.params.ldVxVyPresent = false ∧ ∃ x y, i = .ldReg x y
  | .randomSourceFailure => s.sample.available = false ∧ ∃ x kk, i = .rnd x kk
  | .indexOverflow => s.params.indexOverflow = .fault ∧ ∃ x, i = .addIVx x ∧ 0xFFFF < s.i.toNat + (s.v x).toNat
  | .keyIndexRange v =>
    s.params.keyIndexMode = .fault ∧ 15 < v.toNat ∧ ∃ x, v = s.v x ∧ (i = .skp x ∨ i = .sknp x)

end Sys2Proof.Machine
end

