-- ==== Sys2Proof/Certificates/Slice0/Obligations.lean ====
section
/-! DEFINITION. The statements for the provers. Each docstring names the rules of spec/ it formalises. A statement about
every state holds for every value of the parameters (`params`), of the random input and of the free values. -/

open Sys2Proof Sys2Proof.Machine

/-! ### Encoding and decoding (30_encoding.md) -/

/-- A few words written out from the opcode map of 30_encoding.md R54, one per family, with two unmatched ones (R55). The
patterns but `00E0` are the spec's general knowledge (D8, log 10). -/
def Obligations.SampleWordsDecode : Prop :=
  decodeWord 0x00E0#16 = some .cls ∧ decodeWord 0x00EE#16 = some .ret ∧
  decodeWord 0x2210#16 = some (.call 0x210#12) ∧ decodeWord 0x332A#16 = some (.seImm 3 0x2A#8) ∧
  decodeWord 0x8A04#16 = some (.addReg 0xA 0) ∧ decodeWord 0xC30F#16 = some (.rnd 3 0x0F#8) ∧
  decodeWord 0xA300#16 = some (.ldI 0x300#12) ∧ decodeWord 0xF265#16 = some (.ldVxMem 2) ∧
  decodeWord 0xD125#16 = some (.drw 1 2 5) ∧ decodeWord 0xE19E#16 = some (.skp 1) ∧
  decodeWord 0x5121#16 = none ∧ decodeWord 0x0123#16 = none

/-- 30_encoding.md R59: encoding is inverse to decoding. For every instruction, with every operand at every value, the word
and the bytes of its encoding decode to it, whatever bytes follow. That `8xy0` decodes under every `LD_VX_VY_PRESENT` is the
model's choice (log 5: the spec calls it unmatched without its row, and the meaning checks); the patterns but `00E0` are
the spec's general knowledge (D8, log 10). -/
def Obligations.DecodeEncodeRoundTrip : Prop :=
  ∀ (i : Instr) (rest : List Byte),
    decodeWord (encode i) = some i ∧ decode (encodeBytes i ++ rest) = .ok (i, rest)

/-- 30_encoding.md R59, the other way: a word that decodes is the encoding of what it decodes to, the ignored `y` field of
8xy6 and 8xyE included, so a fault record's opcode is the word fetched (log 6). `8xy0` decodes under every
`LD_VX_VY_PRESENT`, by the model's choice (log 5); the patterns: D8, log 10. -/
def Obligations.EncodeInvertsDecode : Prop :=
  ∀ (w : Word) (i : Instr), decodeWord w = some i → encode i = w

/-- 30_encoding.md R53 (exact match: D9 of the spec, log 10): a word decodes to the instruction of a row exactly when
`w & mask == match`, and the rows are pairwise disjoint: no word matches two of them. The map is that of all 34 rows: that
row 10, `8xy0`, is taken under every `LD_VX_VY_PRESENT` is the model's choice (log 5), where the spec has it only if true. -/
def Obligations.DecodeSelectsTheOnlyMatchingRow : Prop :=
  (∀ (w : Word) (i : Instr),
    decodeWord w = some i ↔ ∃ r ∈ opcodeTable, w &&& r.mask = r.value ∧ r.build w = i) ∧
  ∀ (w : Word) (j k : Nat) (r q : OpcodeRow), opcodeTable[j]? = some r → opcodeTable[k]? = some q →
    w &&& r.mask = r.value → w &&& q.mask = q.value → j = k

/-- 30_encoding.md R55 (exact match: D9 of the spec, log 10): the words no row matches are exactly those the rule lists, but
for `8xy0`, which is decoded under every `LD_VX_VY_PRESENT` by the model's choice (log 5): without its row
`CopyWhereTheRowIsPresent` says that it acts as an unmatched word. -/
def Obligations.UnmatchedWordsAreExactlyTheListed : Prop :=
  ∀ w : Word, decodeWord w = none ↔
    (w.extractLsb' 12 4 = 0x0#4 ∧ fieldNnn w ≠ 0x0E0#12 ∧ fieldNnn w ≠ 0x0EE#12) ∨
    (w.extractLsb' 12 4 = 0x5#4 ∧ fieldN w ≠ 0#4) ∨
    (w.extractLsb' 12 4 = 0x8#4 ∧ fieldN w ∈ [0x8#4, 0x9#4, 0xA#4, 0xB#4, 0xC#4, 0xD#4, 0xF#4]) ∨
    (w.extractLsb' 12 4 = 0x9#4 ∧ fieldN w ≠ 0#4) ∨
    (w.extractLsb' 12 4 = 0xE#4 ∧ fieldKk w ∉ [0x9E#8, 0xA1#8]) ∨
    (w.extractLsb' 12 4 = 0xF#4 ∧
      fieldKk w ∉ [0x07#8, 0x0A#8, 0x15#8, 0x18#8, 0x1E#8, 0x29#8, 0x33#8, 0x55#8, 0x65#8])

/-! ### The step (40_fetch_execute.md) -/

/-- A step runs the decoded instruction: on a machine that is not halted and not waiting, when the two bytes at PC decode
to `i`, the step is `exec i` and nothing else (40_fetch_execute.md R60 to R62). For `8xy0`, which always decodes (the
model's choice, log 5), `exec` checks that the row is present. -/
def Obligations.StepRunsDecodedInstruction : Prop :=
  ∀ (s : State) (i : Instr), s.fault = none → s.mode = .running → s.pc.toNat + 1 < 4096 →
    decode [s.byteAt s.pc.toNat, s.byteAt (s.pc.toNat + 1)] = .ok (i, []) → step s = exec i s

/-- 40_fetch_execute.md R61: a Running step fetches the big-endian word at PC and PC + 1 and executes it; an address of 4096
or more raises MemoryBounds with that address, the one at PC first, with no opcode, and changes nothing else. -/
def Obligations.FetchReadsBigEndianWordOrFaults : Prop :=
  ∀ s : State, s.fault = none → s.mode = .running →
    (4096 ≤ s.pc.toNat → ∃ t, step s = .next t ∧
      t.fault = some ⟨.memoryBounds s.pc.toNat, s.pc, none⟩ ∧ s.SameBut t [.fault]) ∧
    (s.pc.toNat = 4095 → ∃ t, step s = .next t ∧
      t.fault = some ⟨.memoryBounds 4096, s.pc, none⟩ ∧ s.SameBut t [.fault]) ∧
    (s.pc.toNat < 4095 →
      step s = executeWord (((s.byteAt s.pc.toNat).setWidth 16 <<< 8) ||| (s.byteAt (s.pc.toNat + 1)).setWidth 16) s)

/-- 40_fetch_execute.md R71: what a step does with an unmatched word, for each value of `UNMATCHED_POLICY` (D1, log 1). -/
def Obligations.UnmatchedWordFollowsPolicy : Prop :=
  ∀ (s : State) (w : Word), s.fault = none → s.mode = .running → s.fetch = .ok w → decodeWord w = none →
    (s.params.unmatchedPolicy = .stall → step s = .next s) ∧
    (s.params.unmatchedPolicy = .advance → ∃ t, step s = .next t ∧ t.pc = s.pc + 2 ∧ s.SameBut t [.pc]) ∧
    (s.params.unmatchedPolicy = .fault → ∃ t, step s = .next t ∧
      s.HaltedBy t .illegalOpcode w ∧ s.SameBut t [.fault])

/-- 40_fetch_execute.md R70 (with C1 and D25 of the spec): with no key held a waiting step changes nothing; with a key held
it writes the lowest one to `V[r]`, returns to Running, and is then the Running step of the word at PC. -/
def Obligations.WaitStepPollsThenRuns : Prop :=
  ∀ (s : State) (r : Nibble), s.fault = none → s.mode = .awaitingKey r →
    ((∀ k : Nibble, s.keyDown k = false) → step s = .next s) ∧
    ∀ k : Nibble, s.keyDown k = true → (∀ j : Nibble, j.toNat < k.toNat → s.keyDown j = false) →
      ∃ u : State, u.v r = BitVec.ofNat 8 k.toNat ∧ (∀ q : Nibble, q ≠ r → u.v q = s.v q) ∧ u.mode = .running ∧
        s.SameBut u [.v, .mode] ∧ step s = step u

/-- 60_exceptions.md R119 (D12, D13, and D24 for load, of the spec, log 15): while the machine is halted, Step and Frame change nothing and return the
fault, load and the key calls act and leave the fault, and Reset clears it. -/
def Obligations.HaltedMachineStaysUntilReset : Prop :=
  ∀ (s : State) (f : FaultRecord), s.fault = some f →
    perform .step s = .next s ∧ perform .frame s = .next s ∧ s.result = .failed f ∧
    (∀ image, ∃ t, perform (.load image) s = .next t ∧ t.fault = some f) ∧
    (∀ k : Nat, k < 16 → ∃ t, perform (.press k) s = .next t ∧ t.fault = some f ∧ t.keyDown (BitVec.ofNat 4 k) = true) ∧
    (∀ k : Nat, k < 16 → ∃ t, perform (.release k) s = .next t ∧ t.fault = some f ∧ t.keyDown (BitVec.ofNat 4 k) = false) ∧
    (∃ t, perform .releaseAll s = .next t ∧ t.fault = some f ∧ ∀ k : Nibble, t.keyDown k = false) ∧
    ∃ t, perform .reset s = .next t ∧ t.fault = none

/-- Every instruction and every step answers a next state: a fatal fault is taken, not a stop (60_exceptions.md R118, log 2). -/
def Obligations.EveryStepAnswersNext : Prop :=
  (∀ (i : Instr) (s : State), ∃ t, exec i s = .next t) ∧ ∀ s : State, ∃ t, step s = .next t

/-! ### Invariants -/

/-- The invariant (log 14) holds of every constructed machine, whatever its parameters, and so at reset. -/
def Obligations.ResetStateMeetsInvariant : Prop :=
  (∀ p : Params, (State.construct p).Inv) ∧ State.reset.Inv

/-- Every step keeps the invariant, from every state that meets it: memory stays canonical, PC stays at most 0x10FE
(40_fetch_execute.md R72), return addresses at most 4096 (10_state.md R21), and a fault names the PC it stopped at. The
bounds are the spec's inference from its rules (log 14). -/
def Obligations.StepKeepsInvariant : Prop :=
  ∀ s t : State, s.Inv → step s = .next t → t.Inv

/-- Every command of the host keeps the invariant, so it holds along every history of host calls
(70_reset_and_hazards.md R148). -/
def Obligations.CommandsKeepInvariant : Prop :=
  ∀ (c : Command) (s t : State), s.Inv → perform c s = .next t → t.Inv

/-! ### The host interface -/

/-- 70_reset_and_hazards.md R136 (with D14 of the spec, log 9, and D29 for the stack): Reset returns every field to its reset
value, from any state, and so does Construct (R137). -/
def Obligations.ResetRestoresEveryField : Prop :=
  ∀ s t : State, (perform .reset s = .next t ∨ t = State.construct s.params) →
    (∀ a : Nat, t.byteAt a = if h : a < 80 then s.params.font[a] else 0#8) ∧
    (∀ r : Nibble, t.v r = 0#8) ∧ t.i = 0#16 ∧ t.pc = 0x200#16 ∧ t.dt = 0#8 ∧ t.st = 0#8 ∧
    (∀ k : Fin 16, t.stack.get k = 0#16) ∧ t.sp.val = 0 ∧
    (∀ (x : Fin 64) (y : Fin 32), pixel t.fb x y = false) ∧
    (∀ k : Nibble, t.keyDown k = false) ∧ t.mode = .running ∧ t.fault = none ∧ t.params = s.params

/-- 20_memory.md R42 (D24 of the spec, log 15) and 70_reset_and_hazards.md R139: Load puts the image's bytes at 512 on, in
order; those that would lie past 4095 are dropped, every other byte keeps its value (D24 of the spec, log 15), and every
other field is left as it is. -/
def Obligations.LoadWritesProgramBytesOnly : Prop :=
  ∀ (s : State) (image : List Byte), s.MemWf → ∃ t, perform (.load image) s = .next t ∧
    (∀ (k : Nat) (b : Byte), image[k]? = some b → 512 + k < 4096 → t.byteAt (512 + k) = b) ∧
    (∀ a : Nat, a < 512 ∨ 512 + image.length ≤ a ∨ 4096 ≤ a → t.byteAt a = s.byteAt a) ∧
    s.SameBut t [.m]

/-- 60_exceptions.md R129, R130: Press and Release set one key and no other, ReleaseAll clears all; `is_pressed(k)` reads the key
and `first_pressed()` gives the lowest one held, or none. -/
def Obligations.KeyCallsActOnTheirKeys : Prop :=
  ∀ s : State,
    (∀ k : Nibble, ∃ t, perform (.press k.toNat) s = .next t ∧ t.keyDown k = true ∧
      (∀ j : Nibble, j ≠ k → t.keyDown j = s.keyDown j) ∧ s.SameBut t [.keys]) ∧
    (∀ k : Nibble, ∃ t, perform (.release k.toNat) s = .next t ∧ t.keyDown k = false ∧
      (∀ j : Nibble, j ≠ k → t.keyDown j = s.keyDown j) ∧ s.SameBut t [.keys]) ∧
    (∃ t, perform .releaseAll s = .next t ∧ (∀ j : Nibble, t.keyDown j = false) ∧ s.SameBut t [.keys]) ∧
    (∀ k : Nibble, s.keyDown k = s.keys.get k.toFin) ∧
    (s.firstPressed = none ↔ ∀ k : Nibble, s.keyDown k = false) ∧
    ∀ k : Nibble, s.firstPressed = some k ↔
      s.keyDown k = true ∧ ∀ j : Nibble, j.toNat < k.toNat → s.keyDown j = false

/-- 40_fetch_execute.md R75 (with D23 of the spec): a host call with an index above 15 is refused, and within range it is
not. -/
def Obligations.HostIndexOutOfRangeRefused : Prop :=
  ∀ (s : State) (k : Nat),
    (16 ≤ k → perform (.press k) s = .refused (.keyOutOfRange k) ∧
      perform (.release k) s = .refused (.keyOutOfRange k) ∧ s.readV k = .error (.registerOutOfRange k)) ∧
    (k < 16 → s.readV k = .ok (s.v (BitVec.ofNat 4 k)))

/-- 40_fetch_execute.md R76 (with D21 of the spec): the framebuffer export is the 64 by 32 grid, row-major. -/
def Obligations.FramebufferExportIsRowMajor : Prop :=
  ∀ (s : State), s.framebuffer.length = 2048 ∧
    ∀ (x : Fin 64) (y : Fin 32), s.framebuffer[y.val * 64 + x.val]? = some (pixel s.fb x y)

/-- 40_fetch_execute.md R73 and 60_exceptions.md R127 (with D13 of the spec, log 15): a frame on a machine that is not halted
is one tick of DT, which stops at 0, and then eight steps. That a fault ends the frame follows: a halted machine's step
changes nothing. -/
def Obligations.FrameTicksThenRunsEightSteps : Prop :=
  ∀ s : State, s.fault = none →
    perform .frame s = core.run 8 { s with dt := BitVec.ofNat 8 (s.dt.toNat - 1) }

/-! ### Memory (20_memory.md) -/

/-- 20_memory.md R36: the two access primitives. The address is checked when it is used and never reduced; a write is read
back, and no other byte and no other field changes. -/
def Obligations.MemoryPrimitivesCheckAndStore : Prop :=
  ∀ (s : State) (a : Nat) (b : Byte), s.MemWf →
    (4096 ≤ a → s.memRead a = .error (.memoryBounds a) ∧ s.memWrite a b = .error (.memoryBounds a)) ∧
    (a < 4096 → s.memRead a = .ok (s.byteAt a) ∧ ∃ t, s.memWrite a b = .ok t ∧ t.memRead a = .ok b ∧
      (∀ c : Nat, c ≠ a → t.byteAt c = s.byteAt c) ∧ s.SameBut t [.m])

/-- 20_memory.md R47, 70_reset_and_hazards.md R143: a word stored by `LD [I], Vx` over the next instruction is what the next
fetch reads. -/
def Obligations.StoredWordIsFetchedNext : Prop :=
  ∀ (s : State) (x : Nibble), s.MemWf → 1 ≤ x.toNat → s.i = s.pc + 2 → s.pc.toNat < 4094 → s.i.toNat + x.toNat < 4096 →
    ∃ t, exec (.ldMemVx x) s = .next t ∧ t.fetch = .ok (s.v 0 ++ s.v 1)

/-! ### Whole-machine rules -/

/-- 10_state.md R16 to R19, R21 to R24, R26, R27, R30 and 20_memory.md R34, for every field of State but V, which
`RegistersChangeOnlyAsDestinations` states: the only instructions that can change DT, ST, I, the stack, SP, the framebuffer,
the mode or memory; PC moves only when no fault is raised, and the fault record changes only by a fault the instruction can
raise; none changes the keys or the parameters; the model's own random input and count of free values (log 3, log 4) change
only by RND and by the four instructions that may leave free values. -/
def Obligations.EachFieldHasItsWriters : Prop :=
  ∀ (i : Instr) (s t : State), exec i s = .next t →
    (t.dt ≠ s.dt → ∃ x, i = .ldDtVx x) ∧
    (t.st ≠ s.st → ∃ x, i = .ldStVx x) ∧
    (t.i ≠ s.i → (∃ nnn, i = .ldI nnn) ∨ (∃ x, i = .addIVx x) ∨ (∃ x, i = .ldFVx x)) ∧
    (t.stack ≠ s.stack → ∃ nnn, i = .call nnn) ∧
    (t.sp ≠ s.sp → (∃ nnn, i = .call nnn) ∨ i = .ret) ∧
    (t.fb ≠ s.fb → i = .cls ∨ ∃ x y n, i = .drw x y n) ∧
    (t.mode ≠ s.mode → ∃ x, i = .ldVxK x) ∧
    (∀ a : Nat, t.byteAt a ≠ s.byteAt a → (∃ x, i = .ldBVx x) ∨ (∃ x, i = .ldMemVx x)) ∧
    (t.pc ≠ s.pc → t.fault = s.fault) ∧
    (t.fault ≠ s.fault → ∃ f : FaultRecord, t.fault = some f ∧ f.cause.RaisedBy i s) ∧
    (t.rand ≠ s.rand ∨ t.draws ≠ s.draws → (∃ x kk, i = .rnd x kk) ∨ (∃ x y n, i = .drw x y n) ∨
      (∃ x, i = .ldBVx x) ∨ (∃ x, i = .ldMemVx x) ∨ (∃ x, i = .ldVxMem x)) ∧
    t.keys = s.keys ∧ t.params = s.params

/-- 10_state.md R15, R30: a general register changes only as the destination of an instruction, as VF of a flag writer, or
within V0 to Vx of `LD Vx, [I]`; a fault does not widen this. -/
def Obligations.RegistersChangeOnlyAsDestinations : Prop :=
  ∀ (i : Instr) (s t : State) (r : Nibble), exec i s = .next t → t.v r ≠ s.v r → MayWrite i r

/-- 60_exceptions.md R117, R118 (with D12 of the spec, log 15): an instruction that raises a fault leaves PC where it was, its
record names that PC and the instruction's word (log 6), and the cause is one its class can raise, on the condition the
table gives (IllegalOpcode: `8xy0` without its row, which the model decodes, log 5). -/
def Obligations.FaultNamesItsInstruction : Prop :=
  ∀ (i : Instr) (s t : State) (f : FaultRecord), s.fault = none → exec i s = .next t → t.fault = some f →
    f.pc = s.pc ∧ f.opcode = some (encode i) ∧ t.pc = s.pc ∧ f.cause.RaisedBy i s

/-- 40_fetch_execute.md R64: Continue is PC + 2, for every instruction that always yields it when it raises nothing (`8xy0`
where its row is present, D2 of the spec), and for every skip instruction whose condition fails. -/
def Obligations.ContinueAdvancesOneWord : Prop :=
  (∀ (i : Instr) (s t : State), AlwaysContinues s.params i → s.fault = none → exec i s = .next t → t.fault = none →
    t.pc = s.pc + 2) ∧
  ∀ (i : Instr) (s : State), s.skipCondition i = some false → exec i s = .next { s with pc := s.pc + 2 }

/-- 40_fetch_execute.md R65: SkipNext is PC + 4, twice the normal step, and a skip instruction whose condition holds does
nothing else: it neither fetches nor checks the word it skips. -/
def Obligations.SkipNextAdvancesTwoWords : Prop :=
  ∀ (i : Instr) (s : State), s.skipCondition i = some true → exec i s = .next { s with pc := s.pc + 4 }

/-! ### Control flow (41_control_flow.md) -/

/-- 41_control_flow.md R79, R85 (with D18 and D26 of the spec): JP goes to nnn, JP V0 to the exact sum nnn + V0, held in 16
bits with no mask to 12; nothing else changes. -/
def Obligations.JumpsGoToTheirTargets : Prop :=
  ∀ (nnn : Addr) (s : State),
    (∃ t, exec (.jp nnn) s = .next t ∧ t.pc.toNat = nnn.toNat ∧ s.SameBut t [.pc]) ∧
    (∃ t, exec (.jpV0 nnn) s = .next t ∧ t.pc.toNat = nnn.toNat + (s.v 0).toNat ∧ s.SameBut t [.pc])

/-- 41_control_flow.md R81 to R84: the four compare-and-skip instructions on registers. -/
def Obligations.CompareSkipsMoveByFourOrTwo : Prop :=
  ∀ (x y : Nibble) (kk : Byte) (s : State),
    exec (.seImm x kk) s = .next { s with pc := if s.v x = kk then s.pc + 4 else s.pc + 2 } ∧
    exec (.sneImm x kk) s = .next { s with pc := if s.v x = kk then s.pc + 2 else s.pc + 4 } ∧
    exec (.seReg x y) s = .next { s with pc := if s.v x = s.v y then s.pc + 4 else s.pc + 2 } ∧
    exec (.sneReg x y) s = .next { s with pc := if s.v x = s.v y then s.pc + 2 else s.pc + 4 }

/-- 40_fetch_execute.md R67: CALL pushes PC + 2 at the slot SP names, increments SP and goes to nnn; with SP = 16 it raises
StackOverflow and changes nothing else. -/
def Obligations.CallPushesReturnAddress : Prop :=
  ∀ (nnn : Addr) (s : State),
    (s.sp.val < 16 → ∃ t, exec (.call nnn) s = .next t ∧
      (∀ k : Fin 16, k.val = s.sp.val → t.stack.get k = s.pc + 2) ∧
      (∀ k : Fin 16, k.val ≠ s.sp.val → t.stack.get k = s.stack.get k) ∧
      t.sp.val = s.sp.val + 1 ∧ t.pc.toNat = nnn.toNat ∧ s.SameBut t [.stack, .sp, .pc]) ∧
    (s.sp.val = 16 → ∃ t, exec (.call nnn) s = .next t ∧
      s.HaltedBy t .stackOverflow (encode (.call nnn)) ∧ s.SameBut t [.fault])

/-- 40_fetch_execute.md R68: RET decrements SP and goes to the entry SP then names, which it does not clear; with SP = 0 it
raises StackUnderflow and changes nothing else. -/
def Obligations.ReturnPopsIntoPc : Prop :=
  ∀ s : State,
    (0 < s.sp.val → ∃ t, exec .ret s = .next t ∧ t.sp.val = s.sp.val - 1 ∧
      (∀ k : Fin 16, k.val = s.sp.val - 1 → t.pc = s.stack.get k) ∧ s.SameBut t [.sp, .pc]) ∧
    (s.sp.val = 0 → ∃ t, exec .ret s = .next t ∧
      s.HaltedBy t .stackUnderflow 0x00EE#16 ∧ s.SameBut t [.fault])

/-- 41_control_flow.md R80: calling then immediately returning restores the exact pre-call PC + 2 and SP; every register, all
of memory, the framebuffer and every stack entry but the one the call pushed are as before. -/
def Obligations.CallThenReturnRestores : Prop :=
  ∀ (nnn : Addr) (s t : State), s.sp.val < 16 → exec (.call nnn) s = .next t →
    ∃ u, exec .ret t = .next u ∧ u.pc = s.pc + 2 ∧ u.sp = s.sp ∧
      (∀ k : Fin 16, k.val ≠ s.sp.val → u.stack.get k = s.stack.get k) ∧ s.SameBut u [.stack, .pc]

/-! ### ALU and registers (42_alu.md) -/

/-- 42_alu.md R88, R89: `LD Vx, kk` writes kk; `ADD Vx, kk` adds modulo 256 and writes no flag. -/
def Obligations.ImmediateLoadAndAdd : Prop :=
  ∀ (x : Nibble) (kk : Byte) (s : State),
    (∃ t, exec (.ldImm x kk) s = .next t ∧ t.v x = kk ∧ (∀ r : Nibble, r ≠ x → t.v r = s.v r) ∧
      t.pc = s.pc + 2 ∧ s.SameBut t [.v, .pc]) ∧
    (∃ t, exec (.addImm x kk) s = .next t ∧ (t.v x).toNat = ((s.v x).toNat + kk.toNat) % 256 ∧
      (∀ r : Nibble, r ≠ x → t.v r = s.v r) ∧ t.pc = s.pc + 2 ∧ s.SameBut t [.v, .pc])

/-- 42_alu.md R90 (with D2 of the spec): `8xy0` copies Vy to Vx where the machine has the row; where it has not, the word is
unmatched and follows the policy of 40_fetch_execute.md R71 (checked by the meaning, not by the decoder: log 5). -/
def Obligations.CopyWhereTheRowIsPresent : Prop :=
  ∀ (x y : Nibble) (s : State),
    (s.params.ldVxVyPresent = true → ∃ t, exec (.ldReg x y) s = .next t ∧ t.v x = s.v y ∧
      (∀ r : Nibble, r ≠ x → t.v r = s.v r) ∧ t.pc = s.pc + 2 ∧ s.SameBut t [.v, .pc]) ∧
    (s.params.ldVxVyPresent = false → s.params.unmatchedPolicy = .stall → exec (.ldReg x y) s = .next s) ∧
    (s.params.ldVxVyPresent = false → s.params.unmatchedPolicy = .advance →
      exec (.ldReg x y) s = .next { s with pc := s.pc + 2 }) ∧
    (s.params.ldVxVyPresent = false → s.params.unmatchedPolicy = .fault → ∃ t, exec (.ldReg x y) s = .next t ∧
      s.HaltedBy t .illegalOpcode (encode (.ldReg x y)) ∧ s.SameBut t [.fault])

/-- 42_alu.md R91 to R93: OR, AND and XOR act bit by bit on Vx and Vy and write no flag. -/
def Obligations.BitwiseOperationsActBitByBit : Prop :=
  ∀ (x y : Nibble) (s : State),
    (∃ t, exec (.orReg x y) s = .next t ∧
      (∀ k : Nat, (t.v x).getLsbD k = ((s.v x).getLsbD k || (s.v y).getLsbD k)) ∧
      (∀ r : Nibble, r ≠ x → t.v r = s.v r) ∧ t.pc = s.pc + 2 ∧ s.SameBut t [.v, .pc]) ∧
    (∃ t, exec (.andReg x y) s = .next t ∧
      (∀ k : Nat, (t.v x).getLsbD k = ((s.v x).getLsbD k && (s.v y).getLsbD k)) ∧
      (∀ r : Nibble, r ≠ x → t.v r = s.v r) ∧ t.pc = s.pc + 2 ∧ s.SameBut t [.v, .pc]) ∧
    (∃ t, exec (.xorReg x y) s = .next t ∧
      (∀ k : Nat, (t.v x).getLsbD k = ((s.v x).getLsbD k ^^ (s.v y).getLsbD k)) ∧
      (∀ r : Nibble, r ≠ x → t.v r = s.v r) ∧ t.pc = s.pc + 2 ∧ s.SameBut t [.v, .pc])

/-- 42_alu.md R94: `ADD Vx, Vy` keeps the low 8 bits of the exact sum and writes the carry to VF, under both orders; with
x = 15 the carry stands. -/
def Obligations.AddRegistersWritesCarry : Prop :=
  ∀ (x y : Nibble) (s : State), ∃ t, exec (.addReg x y) s = .next t ∧
    (t.v 15).toNat = (if 255 < (s.v x).toNat + (s.v y).toNat then 1 else 0) ∧
    (x ≠ 15 → (t.v x).toNat = ((s.v x).toNat + (s.v y).toNat) % 256) ∧
    (∀ r : Nibble, r ≠ x → r ≠ 15 → t.v r = s.v r) ∧ t.pc = s.pc + 2 ∧ s.SameBut t [.v, .pc]

/-- 42_alu.md R95 (with D4 of the spec for x = 15 or y = 15): `SUB Vx, Vy` saturates at 0 and writes the strict not-borrow
flag; under `sequential` the result reads the registers after the flag write. -/
def Obligations.SubtractSaturatesWithFlag : Prop :=
  ∀ (x y : Nibble) (s : State) (a b f : Nat), a = (s.v x).toNat → b = (s.v y).toNat → f = (if b < a then 1 else 0) →
    ∃ t, exec (.subReg x y) s = .next t ∧
      (x ≠ 15 → (t.v x).toNat = if y = 15 ∧ s.params.aluVfOrder = .sequential then a - f else a - b) ∧
      (t.v 15).toNat = (if x = 15 ∧ s.params.aluVfOrder = .sequential then f - b else f) ∧
      (∀ r : Nibble, r ≠ x → r ≠ 15 → t.v r = s.v r) ∧ t.pc = s.pc + 2 ∧ s.SameBut t [.v, .pc]

/-- 42_alu.md R96 (with D4 of the spec for x = 15): `SHR Vx` halves Vx and writes the bit shifted out to VF; `y` is ignored. -/
def Obligations.ShiftRightMovesLowBitToFlag : Prop :=
  ∀ (x y : Nibble) (s : State), ∃ t, exec (.shr x y) s = .next t ∧
    (x ≠ 15 → (t.v x).toNat = (s.v x).toNat / 2) ∧
    (t.v 15).toNat = (if x = 15 ∧ s.params.aluVfOrder = .sequential then 0 else (s.v x).toNat % 2) ∧
    (∀ r : Nibble, r ≠ x → r ≠ 15 → t.v r = s.v r) ∧ t.pc = s.pc + 2 ∧ s.SameBut t [.v, .pc]

/-- 42_alu.md R97 (with D4 of the spec for x = 15 or y = 15): `SUBN Vx, Vy` is Vy - Vx, saturating, with the strict
not-borrow flag. -/
def Obligations.ReverseSubtractSaturatesWithFlag : Prop :=
  ∀ (x y : Nibble) (s : State) (a b f : Nat), a = (s.v x).toNat → b = (s.v y).toNat → f = (if a < b then 1 else 0) →
    ∃ t, exec (.subnReg x y) s = .next t ∧
      (x ≠ 15 → (t.v x).toNat = if y = 15 ∧ s.params.aluVfOrder = .sequential then f - a else b - a) ∧
      (t.v 15).toNat =
        (if x = 15 ∧ s.params.aluVfOrder = .sequential then (if y = 15 then 0 else b - f) else f) ∧
      (∀ r : Nibble, r ≠ x → r ≠ 15 → t.v r = s.v r) ∧ t.pc = s.pc + 2 ∧ s.SameBut t [.v, .pc]

/-- 42_alu.md R98 (with D4 of the spec for x = 15): `SHL Vx` doubles Vx modulo 256 and writes the bit shifted out to VF; `y`
is ignored. -/
def Obligations.ShiftLeftMovesHighBitToFlag : Prop :=
  ∀ (x y : Nibble) (s : State), ∃ t, exec (.shl x y) s = .next t ∧
    (x ≠ 15 → (t.v x).toNat = 2 * (s.v x).toNat % 256) ∧
    (t.v 15).toNat =
      (if x = 15 ∧ s.params.aluVfOrder = .sequential then 2 * ((s.v x).toNat / 128) else (s.v x).toNat / 128) ∧
    (∀ r : Nibble, r ≠ x → r ≠ 15 → t.v r = s.v r) ∧ t.pc = s.pc + 2 ∧ s.SameBut t [.v, .pc]

/-- 42_alu.md R99, 60_exceptions.md R131 (with D16 of the spec): `RND Vx, kk` writes the sample of the random input masked by
kk, or raises RandomSourceFailure with Vx and PC unchanged. The sample is any byte, available or not (log 3). -/
def Obligations.RandomByteIsMaskedOrFails : Prop :=
  ∀ (x : Nibble) (kk : Byte) (s : State),
    (s.sample.available = true → ∃ t, exec (.rnd x kk) s = .next t ∧ t.v x = s.sample.byte &&& kk ∧
      (∀ r : Nibble, r ≠ x → t.v r = s.v r) ∧ t.pc = s.pc + 2 ∧ s.SameBut t [.v, .pc, .free]) ∧
    (s.sample.available = false → ∃ t, exec (.rnd x kk) s = .next t ∧
      s.HaltedBy t .randomSourceFailure (encode (.rnd x kk)) ∧ s.SameBut t [.fault, .free])

/-! ### Index and memory transfers (43_index_memory.md) -/

/-- 43_index_memory.md R100, R102 (with D27 of the spec): `LD I, nnn` and the glyph address `5 * Vx`, not masked. -/
def Obligations.IndexLoadAndGlyphAddress : Prop :=
  ∀ (nnn : Addr) (x : Nibble) (s : State),
    (∃ t, exec (.ldI nnn) s = .next t ∧ t.i.toNat = nnn.toNat ∧ t.pc = s.pc + 2 ∧ s.SameBut t [.i, .pc]) ∧
    (∃ t, exec (.ldFVx x) s = .next t ∧ t.i.toNat = 5 * (s.v x).toNat ∧ t.pc = s.pc + 2 ∧ s.SameBut t [.i, .pc])

/-- 43_index_memory.md R101 (with D10 of the spec): `ADD I, Vx` writes no flag; past 0xFFFF it wraps or raises IndexOverflow
as `INDEX_OVERFLOW` says. -/
def Obligations.IndexAddWrapsOrFaults : Prop :=
  ∀ (x : Nibble) (s : State),
    (s.i.toNat + (s.v x).toNat ≤ 0xFFFF ∨ s.params.indexOverflow = .wrap →
      ∃ t, exec (.addIVx x) s = .next t ∧ t.i.toNat = (s.i.toNat + (s.v x).toNat) % 65536 ∧
        t.pc = s.pc + 2 ∧ s.SameBut t [.i, .pc]) ∧
    (0xFFFF < s.i.toNat + (s.v x).toNat → s.params.indexOverflow = .fault →
      ∃ t, exec (.addIVx x) s = .next t ∧ s.HaltedBy t .indexOverflow (encode (.addIVx x)) ∧ s.SameBut t [.fault])

/-- 43_index_memory.md R103: `LD B, Vx` stores the hundreds, tens and ones of Vx at I, I + 1, I + 2 and leaves I (D11 of the
spec, log 15). Past the end of memory it raises MemoryBounds with the lowest address out of range (D20 of the spec, log 15);
the bytes it would have written are then any value (60_exceptions.md R120, D12 of the spec, log 4), and every other byte
stays. -/
def Obligations.BcdStoresThreeDigits : Prop :=
  ∀ (x : Nibble) (s : State), s.MemWf →
    (s.i.toNat + 2 < 4096 → ∃ t, exec (.ldBVx x) s = .next t ∧
      (t.byteAt s.i.toNat).toNat = (s.v x).toNat / 100 ∧
      (t.byteAt (s.i.toNat + 1)).toNat = (s.v x).toNat / 10 % 10 ∧
      (t.byteAt (s.i.toNat + 2)).toNat = (s.v x).toNat % 10 ∧
      (∀ a : Nat, a < s.i.toNat ∨ s.i.toNat + 2 < a → t.byteAt a = s.byteAt a) ∧
      t.pc = s.pc + 2 ∧ s.SameBut t [.m, .pc]) ∧
    (4096 ≤ s.i.toNat + 2 → ∃ t, exec (.ldBVx x) s = .next t ∧
      s.HaltedBy t (.memoryBounds (max 4096 s.i.toNat)) (encode (.ldBVx x)) ∧
      (∀ a : Nat, a < s.i.toNat ∨ s.i.toNat + 2 < a ∨ 4096 ≤ a → t.byteAt a = s.byteAt a) ∧
      s.SameBut t [.m, .fault, .free])

/-- 43_index_memory.md R104: `LD [I], Vx` stores V0 to Vx, inclusive, from I on and leaves I (D11 of the spec, log 15). Past
the end of memory it raises MemoryBounds with the lowest address out of range (D20 of the spec, log 15); the bytes it would
have written are then any value (60_exceptions.md R120, D12 of the spec, log 4). -/
def Obligations.StoreRegistersToMemory : Prop :=
  ∀ (x : Nibble) (s : State), s.MemWf →
    (s.i.toNat + x.toNat < 4096 → ∃ t, exec (.ldMemVx x) s = .next t ∧
      (∀ r : Nibble, r.toNat ≤ x.toNat → t.byteAt (s.i.toNat + r.toNat) = s.v r) ∧
      (∀ a : Nat, a < s.i.toNat ∨ s.i.toNat + x.toNat < a → t.byteAt a = s.byteAt a) ∧
      t.pc = s.pc + 2 ∧ s.SameBut t [.m, .pc]) ∧
    (4096 ≤ s.i.toNat + x.toNat → ∃ t, exec (.ldMemVx x) s = .next t ∧
      s.HaltedBy t (.memoryBounds (max 4096 s.i.toNat)) (encode (.ldMemVx x)) ∧
      (∀ a : Nat, a < s.i.toNat ∨ s.i.toNat + x.toNat < a ∨ 4096 ≤ a → t.byteAt a = s.byteAt a) ∧
      s.SameBut t [.m, .fault, .free])

/-- 43_index_memory.md R105: `LD Vx, [I]` loads V0 to Vx, inclusive, from I on and leaves I (D11 of the spec, log 15) and
memory. Past the end of memory it raises MemoryBounds with the lowest address out of range (D20 of the spec, log 15); V0 to
Vx are then any value (60_exceptions.md R120, D12 of the spec, log 4), and the others stay. -/
def Obligations.LoadRegistersFromMemory : Prop :=
  ∀ (x : Nibble) (s : State),
    (s.i.toNat + x.toNat < 4096 → ∃ t, exec (.ldVxMem x) s = .next t ∧
      (∀ r : Nibble, r.toNat ≤ x.toNat → t.v r = s.byteAt (s.i.toNat + r.toNat)) ∧
      (∀ r : Nibble, x.toNat < r.toNat → t.v r = s.v r) ∧
      t.pc = s.pc + 2 ∧ s.SameBut t [.v, .pc]) ∧
    (4096 ≤ s.i.toNat + x.toNat → ∃ t, exec (.ldVxMem x) s = .next t ∧
      s.HaltedBy t (.memoryBounds (max 4096 s.i.toNat)) (encode (.ldVxMem x)) ∧
      (∀ r : Nibble, x.toNat < r.toNat → t.v r = s.v r) ∧
      s.SameBut t [.v, .fault, .free])

/-! ### Display (44_display.md) -/

/-- 44_display.md R106: `00E0`, and no other word, is CLS; it turns every pixel off, advances, and changes nothing else, VF
included. -/
def Obligations.ClearScreenTurnsEveryPixelOff : Prop :=
  (∀ w : Word, decodeWord w = some .cls ↔ w = 0x00E0#16) ∧
  ∀ s : State, ∃ t, exec .cls s = .next t ∧
    (∀ (x : Fin 64) (y : Fin 32), pixel t.fb x y = false) ∧ t.pc = s.pc + 2 ∧ s.SameBut t [.fb, .pc]

/-- 44_display.md R107, every form: a draw whose sprite lies in memory is the loop of the rule, pixel by pixel in its order,
from VF = 0, under both values of `DRAW_COORD_READ` and with x or y equal to 15 too (D5, D6 of the spec, log 1, log 11). -/
def Obligations.DrawFollowsThePixelLoop : Prop :=
  ∀ (x y n : Nibble) (s : State), (n = 0 ∨ s.i.toNat + n.toNat ≤ 4096) →
    ∃ t, exec (.drw x y n) s = .next t ∧
      (t.fb, t.v 15) = (drawOrder n.toNat).foldl (s.drawTurn x y) (s.fb, 0#8) ∧
      (∀ r : Nibble, r ≠ 15 → t.v r = s.v r) ∧ t.pc = s.pc + 2 ∧ s.SameBut t [.fb, .v, .pc]

/-- 44_display.md R108, law 2 (bit order: D6 of the spec, log 11): for x and y other than 15, or under `latched`, the new
framebuffer is the old one XOR the set of pixels the sprite covers, and VF is 1 exactly when a covered pixel was on. -/
def Obligations.DrawIsXorWithCollisionFlag : Prop :=
  ∀ (x y n : Nibble) (s : State), (n = 0 ∨ s.i.toNat + n.toNat ≤ 4096) →
    (s.params.drawCoordRead = .latched ∨ (x ≠ 15 ∧ y ≠ 15)) →
    ∃ t, exec (.drw x y n) s = .next t ∧
      (∀ (px : Fin 64) (py : Fin 32),
        (s.Covers (s.v x) (s.v y) n.toNat px py → pixel t.fb px py = !pixel s.fb px py) ∧
        (¬ s.Covers (s.v x) (s.v y) n.toNat px py → pixel t.fb px py = pixel s.fb px py)) ∧
      ((∃ px py, s.Covers (s.v x) (s.v y) n.toNat px py ∧ pixel s.fb px py = true) → t.v 15 = 1#8) ∧
      ((∀ px py, s.Covers (s.v x) (s.v y) n.toNat px py → pixel s.fb px py = false) → t.v 15 = 0#8)

/-- 44_display.md R108, law 3 (bit order: D6 of the spec, log 11): drawing the same sprite twice at the same place restores
the framebuffer, and the second draw sets VF exactly when a covered pixel was off before the first. For x and y other than
15 the place is the same of itself; with x or y equal to 15, under `latched`, it is where the first draw left VF as it was. -/
def Obligations.DrawingTwiceRestoresTheScreen : Prop :=
  ∀ (x y n : Nibble) (s t u : State), (n = 0 ∨ s.i.toNat + n.toNat ≤ 4096) →
    exec (.drw x y n) s = .next t → exec (.drw x y n) t = .next u →
    (x ≠ 15 ∧ y ≠ 15) ∨ (s.params.drawCoordRead = .latched ∧ t.v x = s.v x ∧ t.v y = s.v y) →
      u.fb = s.fb ∧
      (u.v 15 = 1#8 ↔ ∃ px py, s.Covers (s.v x) (s.v y) n.toNat px py ∧ pixel s.fb px py = false)

/-- 44_display.md R107: a draw whose sprite runs past the end of memory raises MemoryBounds with the lowest address out of
range (D20 of the spec, log 15); the framebuffer and VF are then any value (60_exceptions.md R120, D12 of the spec, log 4),
and all else stays. -/
def Obligations.DrawFaultsPastTheEndOfMemory : Prop :=
  ∀ (x y n : Nibble) (s : State), n ≠ 0 → 4096 < s.i.toNat + n.toNat →
    ∃ t, exec (.drw x y n) s = .next t ∧
      s.HaltedBy t (.memoryBounds (max 4096 s.i.toNat)) (encode (.drw x y n)) ∧
      (∀ r : Nibble, r ≠ 15 → t.v r = s.v r) ∧ s.SameBut t [.fb, .v, .fault, .free]

/-! ### Input and timers (45_input_timers.md) -/

/-- 45_input_timers.md R109, R110 (with D3 of the spec): SKP and SKNP test the level of the key Vx names, its low nibble
under `low_nibble`; under `fault` a value above 15 raises KeyIndexRange with it. -/
def Obligations.KeySkipsTestTheNamedKey : Prop :=
  ∀ (x k : Nibble) (s : State),
    (s.params.keyIndexMode = .lowNibble ∨ (s.v x).toNat ≤ 15 → k.toNat = (s.v x).toNat % 16 →
      exec (.skp x) s = .next { s with pc := if s.keyDown k = true then s.pc + 4 else s.pc + 2 } ∧
      exec (.sknp x) s = .next { s with pc := if s.keyDown k = true then s.pc + 2 else s.pc + 4 }) ∧
    (s.params.keyIndexMode = .fault → 15 < (s.v x).toNat →
      (∃ t, exec (.skp x) s = .next t ∧ s.HaltedBy t (.keyIndexRange (s.v x)) (encode (.skp x)) ∧
        s.SameBut t [.fault]) ∧
      (∃ t, exec (.sknp x) s = .next t ∧ s.HaltedBy t (.keyIndexRange (s.v x)) (encode (.sknp x)) ∧
        s.SameBut t [.fault]))

/-- 45_input_timers.md R111, R113, R114: reading DT, writing DT and writing ST. -/
def Obligations.TimerInstructionsMoveTheTimers : Prop :=
  ∀ (x : Nibble) (s : State),
    (∃ t, exec (.ldVxDt x) s = .next t ∧ t.v x = s.dt ∧ (∀ r : Nibble, r ≠ x → t.v r = s.v r) ∧
      t.pc = s.pc + 2 ∧ s.SameBut t [.v, .pc]) ∧
    (∃ t, exec (.ldDtVx x) s = .next t ∧ t.dt = s.v x ∧ t.pc = s.pc + 2 ∧ s.SameBut t [.dt, .pc]) ∧
    (∃ t, exec (.ldStVx x) s = .next t ∧ t.st = s.v x ∧ t.pc = s.pc + 2 ∧ s.SameBut t [.st, .pc])

/-- 40_fetch_execute.md R69: `LD Vx, K` advances PC past itself and enters AwaitingKey(x), and no other instruction enters
it. -/
def Obligations.WaitForKeyIsEnteredByItsInstruction : Prop :=
  (∀ (x : Nibble) (s : State), ∃ t, exec (.ldVxK x) s = .next t ∧ t.mode = .awaitingKey x ∧ t.pc = s.pc + 2 ∧
    s.SameBut t [.pc, .mode]) ∧
  ∀ (i : Instr) (s t : State) (r : Nibble), s.mode = .running → exec i s = .next t → t.mode = .awaitingKey r →
    i = .ldVxK r

/-- 60_exceptions.md R128 (with D15 of the spec) and 70_reset_and_hazards.md R144: no step moves DT or ST except by the
instructions that write them; a step that changes DT executed `LD DT, Vx`, one that changes ST `LD ST, Vx`. -/
def Obligations.StepsDoNotTickTheTimers : Prop :=
  ∀ s t : State, step s = .next t →
    (t.dt ≠ s.dt → ∃ w x, s.fetch = .ok w ∧ decodeWord w = some (.ldDtVx x)) ∧
    (t.st ≠ s.st → ∃ w x, s.fetch = .ok w ∧ decodeWord w = some (.ldStVx x))

/-! ### Histories of host calls (70_reset_and_hazards.md R148; log 13) -/

/-- 70_reset_and_hazards.md R148 (with D28 of the spec, log 13): any interleaving of calls is a legal history. From every
state, every sequence of calls that name no key above 15 runs to its end, in any order and at any rate, and a call that
names one is refused where it stands (40_fetch_execute.md R75, D23 of the spec). -/
def Obligations.EveryInterleavingIsALegalHistory : Prop :=
  (∀ (calls : History) (s : State), (∀ c ∈ calls, c.legal = true) → ∃ t, runHistory calls s = .next t) ∧
  ∀ (before rest : History) (c : Command) (s : State), (∀ b ∈ before, b.legal = true) → c.legal = false →
    ∃ r, runHistory (before ++ c :: rest) s = .refused r

/-- The invariant (log 14) holds after every history of host calls, from every state that meets it, and so of every machine
from its construction on, whatever its parameters (70_reset_and_hazards.md R137, R148, D28 of the spec, log 13). -/
def Obligations.HistoriesKeepInvariant : Prop :=
  (∀ (calls : History) (s t : State), s.Inv → runHistory calls s = .next t → t.Inv) ∧
  ∀ (calls : History) (p : Params) (t : State), runFromConstruct p calls = .next t → t.Inv

/-- A run of the host's core is the history of as many Step calls, and a frame on a machine that is not halted is the tick
and the history of eight (40_fetch_execute.md R73, D13 of the spec, log 13, log 15). -/
def Obligations.StepsOfTheCoreAreAHistory : Prop :=
  (∀ (n : Nat) (s : State), core.run n s = runHistory (List.replicate n .step) s) ∧
  ∀ s : State, s.fault = none →
    runHistory [.frame] s = runHistory (List.replicate 8 .step) { s with dt := BitVec.ofNat 8 (s.dt.toNat - 1) }

/-- 70_reset_and_hazards.md R145 (load: D24 of the spec, log 15): between steps, loads and key calls leave all but memory and the keys, however many they
are; and the keys are read by level: where every key is, after those calls, as it was, and nothing was loaded, the machine
is as it was, so a press and release that both fall between two steps are never seen. -/
def Obligations.CallsBetweenStepsTouchMemoryAndKeysOnly : Prop :=
  (∀ (calls : History) (s t : State), (∀ c ∈ calls, c ≠ .step ∧ c ≠ .frame ∧ c ≠ .reset) →
    runHistory calls s = .next t →
      s.SameBut t [.m, .keys] ∧ ((∀ image, .load image ∉ calls) → (∀ k : Nibble, t.keyDown k = s.keyDown k) → t = s)) ∧
  ∀ (k : Nibble) (rest : History) (s : State), s.keyDown k = false →
    runHistory (.press k.toNat :: .release k.toNat :: rest) s = runHistory rest s
end

