-- ==== Sys2Proof/Laws/Decode.lean ====
section
/-! SUPPORT. The opcode map as arithmetic: the number of an encoded word, what each mask keeps, the operand fields, and that
no word selects two rows. -/

namespace Sys2Proof

/-! ### The number of a word built from fields -/

theorem toNat_nnn (p : Nibble) (nnn : Addr) : (p ++ nnn : Word).toNat = p.toNat * 4096 + nnn.toNat := by
  have := nnn.isLt
  rw [BitVec.toNat_append, ← Nat.shiftLeft_add_eq_or_of_lt (by omega), Nat.shiftLeft_eq]

theorem toNat_xkk (p x : Nibble) (kk : Byte) :
    (p ++ x ++ kk : Word).toNat = p.toNat * 4096 + x.toNat * 256 + kk.toNat := by
  have := kk.isLt
  have := x.isLt
  rw [BitVec.toNat_append, ← Nat.shiftLeft_add_eq_or_of_lt (by omega), BitVec.toNat_append,
    ← Nat.shiftLeft_add_eq_or_of_lt (by omega), Nat.shiftLeft_eq, Nat.shiftLeft_eq]
  omega

theorem toNat_xyn (p x y n : Nibble) :
    (p ++ x ++ y ++ n : Word).toNat = p.toNat * 4096 + x.toNat * 256 + y.toNat * 16 + n.toNat := by
  have := x.isLt
  have := y.isLt
  have := n.isLt
  rw [BitVec.toNat_append, ← Nat.shiftLeft_add_eq_or_of_lt (by omega), BitVec.toNat_append,
    ← Nat.shiftLeft_add_eq_or_of_lt (by omega), BitVec.toNat_append, ← Nat.shiftLeft_add_eq_or_of_lt (by omega),
    Nat.shiftLeft_eq, Nat.shiftLeft_eq, Nat.shiftLeft_eq]
  omega

/-! ### The operand fields (30_encoding.md R52) -/

theorem toNat_fieldX (w : Word) : (fieldX w).toNat = w.toNat / 256 % 16 := by
  rw [fieldX, BitVec.extractLsb'_toNat, Nat.shiftRight_eq_div_pow]
theorem toNat_fieldY (w : Word) : (fieldY w).toNat = w.toNat / 16 % 16 := by
  rw [fieldY, BitVec.extractLsb'_toNat, Nat.shiftRight_eq_div_pow]
theorem toNat_fieldN (w : Word) : (fieldN w).toNat = w.toNat % 16 := by
  rw [fieldN, BitVec.extractLsb'_toNat, Nat.shiftRight_zero]
theorem toNat_fieldKk (w : Word) : (fieldKk w).toNat = w.toNat % 256 := by
  rw [fieldKk, BitVec.extractLsb'_toNat, Nat.shiftRight_zero]
theorem toNat_fieldNnn (w : Word) : (fieldNnn w).toNat = w.toNat % 4096 := by
  rw [fieldNnn, BitVec.extractLsb'_toNat, Nat.shiftRight_zero]

/-- Every word is its four nibbles. -/
theorem word_nibbles (w : Word) : w = w.extractLsb' 12 4 ++ fieldX w ++ fieldY w ++ fieldN w := by
  apply BitVec.eq_of_toNat_eq
  rw [toNat_xyn, toNat_fieldX, toNat_fieldY, toNat_fieldN, BitVec.extractLsb'_toNat, Nat.shiftRight_eq_div_pow]
  have := w.isLt
  omega

/-! ### What each mask keeps (30_encoding.md R53) -/

theorem and_nibbles (p x y n p' x' y' n' : Nibble) :
    (p ++ x ++ y ++ n : Word) &&& (p' ++ x' ++ y' ++ n' : Word) =
      (p &&& p') ++ (x &&& x') ++ (y &&& y') ++ (n &&& n') := by
  rw [BitVec.and_append, BitVec.and_append, BitVec.and_append]

theorem and_ones (p : Nibble) : p &&& 0xF#4 = p := BitVec.and_allOnes (x := p)
theorem and_none (p : Nibble) : p &&& 0x0#4 = 0x0#4 := BitVec.and_zero (x := p)

theorem toNat_and_F000 (w : Word) : (w &&& 0xF000#16).toNat = w.toNat / 4096 * 4096 := by
  have := w.isLt
  conv_lhs => rw [word_nibbles w, show 0xF000#16 = 0xF#4 ++ 0x0#4 ++ 0x0#4 ++ 0x0#4 from rfl]
  rw [and_nibbles, and_ones, and_none, and_none, and_none, toNat_xyn, BitVec.extractLsb'_toNat, Nat.shiftRight_eq_div_pow]
  simp only [BitVec.toNat_ofNat]
  omega

theorem toNat_and_F00F (w : Word) : (w &&& 0xF00F#16).toNat = w.toNat / 4096 * 4096 + w.toNat % 16 := by
  have := w.isLt
  conv_lhs => rw [word_nibbles w, show 0xF00F#16 = 0xF#4 ++ 0x0#4 ++ 0x0#4 ++ 0xF#4 from rfl]
  rw [and_nibbles, and_ones, and_none, and_none, and_ones, toNat_xyn, toNat_fieldN, BitVec.extractLsb'_toNat,
    Nat.shiftRight_eq_div_pow]
  simp only [BitVec.toNat_ofNat]
  omega

theorem toNat_and_F0FF (w : Word) : (w &&& 0xF0FF#16).toNat = w.toNat / 4096 * 4096 + w.toNat % 256 := by
  have := w.isLt
  conv_lhs => rw [word_nibbles w, show 0xF0FF#16 = 0xF#4 ++ 0x0#4 ++ 0xF#4 ++ 0xF#4 from rfl]
  rw [and_nibbles, and_ones, and_none, and_ones, and_ones, toNat_xyn, toNat_fieldN, toNat_fieldY, BitVec.extractLsb'_toNat,
    Nat.shiftRight_eq_div_pow]
  simp only [BitVec.toNat_ofNat]
  omega

theorem toNat_and_FFFF (w : Word) : (w &&& 0xFFFF#16).toNat = w.toNat :=
  congrArg BitVec.toNat (BitVec.and_allOnes (x := w))

/-! ### The rows -/

theorem OpcodeRow.selects_iff (r : OpcodeRow) (w : Word) : r.selects w = true ↔ w &&& r.mask = r.value := by
  simp [OpcodeRow.selects]

/-- Two rows that differ on a bit both masks keep select no word in common. -/
theorem rows_disjoint {r q : OpcodeRow} {w : Word} (h : (r.mask &&& q.mask) &&& (r.value ^^^ q.value) ≠ 0)
    (hr : w &&& r.mask = r.value) (hq : w &&& q.mask = q.value) : False := by
  apply h
  rw [← hr, ← hq]
  ext k hk
  simp only [BitVec.getElem_and, BitVec.getElem_xor]
  cases w[k] <;> cases r.mask[k] <;> cases q.mask[k] <;> simp

/-- The rows of the opcode map differ pairwise on a bit both masks keep (30_encoding.md R53). -/
theorem opcodeTable_pairwise :
    opcodeTable.Pairwise fun r q => (r.mask &&& q.mask) &&& (r.value ^^^ q.value) ≠ 0 := by
  simp only [opcodeTable, opcodeRowsLow, opcodeRowsAlu, opcodeRowsMid, opcodeRowsHigh, List.cons_append, List.nil_append]
  decide

theorem find_of_pairwise {w : Word} : ∀ {l : List OpcodeRow} {r : OpcodeRow},
    (l.Pairwise fun r q => (r.mask &&& q.mask) &&& (r.value ^^^ q.value) ≠ 0) → r ∈ l → r.selects w = true →
    l.find? (fun r => r.selects w) = some r
  | q :: l, r, hp, hm, hs => by
    rw [List.pairwise_cons] at hp
    rcases List.mem_cons.1 hm with rfl | hm
    · simp [List.find?, hs]
    · have hq : q.selects w = false := by
        by_contra hc
        exact rows_disjoint (hp.1 r hm) ((OpcodeRow.selects_iff q w).1 (by simpa using hc)) ((OpcodeRow.selects_iff r w).1 hs)
      simp only [List.find?, hq]
      exact find_of_pairwise hp.2 hm hs

/-- A word decodes to the instruction of any row that selects it. -/
theorem decodeWord_of_row {w : Word} {r : OpcodeRow} (hm : r ∈ opcodeTable) (hs : r.selects w = true) :
    decodeWord w = some (r.build w) := by
  simp [decodeWord, find_of_pairwise opcodeTable_pairwise hm hs]

/-- A word that decodes was selected by a row, which built the instruction. -/
theorem row_of_decodeWord {w : Word} {i : Instr} (h : decodeWord w = some i) :
    ∃ r ∈ opcodeTable, r.selects w = true ∧ r.build w = i := by
  unfold decodeWord at h
  split at h
  · rename_i r hr
    exact ⟨r, List.mem_of_find?_eq_some hr, by simpa using List.find?_some hr, by simpa using h⟩
  · cases h

/-- A word decodes to nothing when no row selects it. -/
theorem decodeWord_none {w : Word} : decodeWord w = none ↔ ∀ r ∈ opcodeTable, r.selects w = false := by
  unfold decodeWord
  split
  · rename_i r hr
    have h1 := List.find?_some hr
    have h2 := List.mem_of_find?_eq_some hr
    simp only [reduceCtorEq, false_iff]
    intro hn
    simp [hn r h2] at h1
  · rename_i hr
    simpa using hr

end Sys2Proof
end

