-- ==== Sys2Proof/Laws/State.lean ====
section
/-! SUPPORT. One lemma per field per update of the state, true by rfl, so that no later proof unfolds a record update. -/

namespace Sys2Proof.Machine

/-! ### `State.setV` -/

@[simp] theorem State.setV_mem (s : State) (x : Nibble) (b : Byte) : (s.setV x b).mem = s.mem := rfl
@[simp] theorem State.setV_i (s : State) (x : Nibble) (b : Byte) : (s.setV x b).i = s.i := rfl
@[simp] theorem State.setV_pc (s : State) (x : Nibble) (b : Byte) : (s.setV x b).pc = s.pc := rfl
@[simp] theorem State.setV_dt (s : State) (x : Nibble) (b : Byte) : (s.setV x b).dt = s.dt := rfl
@[simp] theorem State.setV_st (s : State) (x : Nibble) (b : Byte) : (s.setV x b).st = s.st := rfl
@[simp] theorem State.setV_stack (s : State) (x : Nibble) (b : Byte) : (s.setV x b).stack = s.stack := rfl
@[simp] theorem State.setV_sp (s : State) (x : Nibble) (b : Byte) : (s.setV x b).sp = s.sp := rfl
@[simp] theorem State.setV_fb (s : State) (x : Nibble) (b : Byte) : (s.setV x b).fb = s.fb := rfl
@[simp] theorem State.setV_keys (s : State) (x : Nibble) (b : Byte) : (s.setV x b).keys = s.keys := rfl
@[simp] theorem State.setV_mode (s : State) (x : Nibble) (b : Byte) : (s.setV x b).mode = s.mode := rfl
@[simp] theorem State.setV_fault (s : State) (x : Nibble) (b : Byte) : (s.setV x b).fault = s.fault := rfl
@[simp] theorem State.setV_params (s : State) (x : Nibble) (b : Byte) : (s.setV x b).params = s.params := rfl
@[simp] theorem State.setV_rand (s : State) (x : Nibble) (b : Byte) : (s.setV x b).rand = s.rand := rfl
@[simp] theorem State.setV_draws (s : State) (x : Nibble) (b : Byte) : (s.setV x b).draws = s.draws := rfl

/-! ### `State.poke` -/

@[simp] theorem State.poke_regs (s : State) (a : Nat) (b : Byte) : (s.poke a b).regs = s.regs := rfl
@[simp] theorem State.poke_i (s : State) (a : Nat) (b : Byte) : (s.poke a b).i = s.i := rfl
@[simp] theorem State.poke_pc (s : State) (a : Nat) (b : Byte) : (s.poke a b).pc = s.pc := rfl
@[simp] theorem State.poke_dt (s : State) (a : Nat) (b : Byte) : (s.poke a b).dt = s.dt := rfl
@[simp] theorem State.poke_st (s : State) (a : Nat) (b : Byte) : (s.poke a b).st = s.st := rfl
@[simp] theorem State.poke_stack (s : State) (a : Nat) (b : Byte) : (s.poke a b).stack = s.stack := rfl
@[simp] theorem State.poke_sp (s : State) (a : Nat) (b : Byte) : (s.poke a b).sp = s.sp := rfl
@[simp] theorem State.poke_fb (s : State) (a : Nat) (b : Byte) : (s.poke a b).fb = s.fb := rfl
@[simp] theorem State.poke_keys (s : State) (a : Nat) (b : Byte) : (s.poke a b).keys = s.keys := rfl
@[simp] theorem State.poke_mode (s : State) (a : Nat) (b : Byte) : (s.poke a b).mode = s.mode := rfl
@[simp] theorem State.poke_fault (s : State) (a : Nat) (b : Byte) : (s.poke a b).fault = s.fault := rfl
@[simp] theorem State.poke_params (s : State) (a : Nat) (b : Byte) : (s.poke a b).params = s.params := rfl
@[simp] theorem State.poke_rand (s : State) (a : Nat) (b : Byte) : (s.poke a b).rand = s.rand := rfl
@[simp] theorem State.poke_draws (s : State) (a : Nat) (b : Byte) : (s.poke a b).draws = s.draws := rfl

/-! ### `State.setKey` -/

@[simp] theorem State.setKey_mem (s : State) (k : Nibble) (d : Bool) : (s.setKey k d).mem = s.mem := rfl
@[simp] theorem State.setKey_regs (s : State) (k : Nibble) (d : Bool) : (s.setKey k d).regs = s.regs := rfl
@[simp] theorem State.setKey_i (s : State) (k : Nibble) (d : Bool) : (s.setKey k d).i = s.i := rfl
@[simp] theorem State.setKey_pc (s : State) (k : Nibble) (d : Bool) : (s.setKey k d).pc = s.pc := rfl
@[simp] theorem State.setKey_dt (s : State) (k : Nibble) (d : Bool) : (s.setKey k d).dt = s.dt := rfl
@[simp] theorem State.setKey_st (s : State) (k : Nibble) (d : Bool) : (s.setKey k d).st = s.st := rfl
@[simp] theorem State.setKey_stack (s : State) (k : Nibble) (d : Bool) : (s.setKey k d).stack = s.stack := rfl
@[simp] theorem State.setKey_sp (s : State) (k : Nibble) (d : Bool) : (s.setKey k d).sp = s.sp := rfl
@[simp] theorem State.setKey_fb (s : State) (k : Nibble) (d : Bool) : (s.setKey k d).fb = s.fb := rfl
@[simp] theorem State.setKey_mode (s : State) (k : Nibble) (d : Bool) : (s.setKey k d).mode = s.mode := rfl
@[simp] theorem State.setKey_fault (s : State) (k : Nibble) (d : Bool) : (s.setKey k d).fault = s.fault := rfl
@[simp] theorem State.setKey_params (s : State) (k : Nibble) (d : Bool) : (s.setKey k d).params = s.params := rfl
@[simp] theorem State.setKey_rand (s : State) (k : Nibble) (d : Bool) : (s.setKey k d).rand = s.rand := rfl
@[simp] theorem State.setKey_draws (s : State) (k : Nibble) (d : Bool) : (s.setKey k d).draws = s.draws := rfl

/-! ### `State.raise` -/

@[simp] theorem State.raise_mem (s : State) (o : Option Word) (f : Fault) : (s.raise o f).mem = s.mem := rfl
@[simp] theorem State.raise_regs (s : State) (o : Option Word) (f : Fault) : (s.raise o f).regs = s.regs := rfl
@[simp] theorem State.raise_i (s : State) (o : Option Word) (f : Fault) : (s.raise o f).i = s.i := rfl
@[simp] theorem State.raise_pc (s : State) (o : Option Word) (f : Fault) : (s.raise o f).pc = s.pc := rfl
@[simp] theorem State.raise_dt (s : State) (o : Option Word) (f : Fault) : (s.raise o f).dt = s.dt := rfl
@[simp] theorem State.raise_st (s : State) (o : Option Word) (f : Fault) : (s.raise o f).st = s.st := rfl
@[simp] theorem State.raise_stack (s : State) (o : Option Word) (f : Fault) : (s.raise o f).stack = s.stack := rfl
@[simp] theorem State.raise_sp (s : State) (o : Option Word) (f : Fault) : (s.raise o f).sp = s.sp := rfl
@[simp] theorem State.raise_fb (s : State) (o : Option Word) (f : Fault) : (s.raise o f).fb = s.fb := rfl
@[simp] theorem State.raise_keys (s : State) (o : Option Word) (f : Fault) : (s.raise o f).keys = s.keys := rfl
@[simp] theorem State.raise_mode (s : State) (o : Option Word) (f : Fault) : (s.raise o f).mode = s.mode := rfl
@[simp] theorem State.raise_params (s : State) (o : Option Word) (f : Fault) : (s.raise o f).params = s.params := rfl
@[simp] theorem State.raise_rand (s : State) (o : Option Word) (f : Fault) : (s.raise o f).rand = s.rand := rfl
@[simp] theorem State.raise_draws (s : State) (o : Option Word) (f : Fault) : (s.raise o f).draws = s.draws := rfl

/-! ### `State.nextDraw` -/

@[simp] theorem State.nextDraw_mem (s : State) : (s.nextDraw).mem = s.mem := rfl
@[simp] theorem State.nextDraw_regs (s : State) : (s.nextDraw).regs = s.regs := rfl
@[simp] theorem State.nextDraw_i (s : State) : (s.nextDraw).i = s.i := rfl
@[simp] theorem State.nextDraw_pc (s : State) : (s.nextDraw).pc = s.pc := rfl
@[simp] theorem State.nextDraw_dt (s : State) : (s.nextDraw).dt = s.dt := rfl
@[simp] theorem State.nextDraw_st (s : State) : (s.nextDraw).st = s.st := rfl
@[simp] theorem State.nextDraw_stack (s : State) : (s.nextDraw).stack = s.stack := rfl
@[simp] theorem State.nextDraw_sp (s : State) : (s.nextDraw).sp = s.sp := rfl
@[simp] theorem State.nextDraw_fb (s : State) : (s.nextDraw).fb = s.fb := rfl
@[simp] theorem State.nextDraw_keys (s : State) : (s.nextDraw).keys = s.keys := rfl
@[simp] theorem State.nextDraw_mode (s : State) : (s.nextDraw).mode = s.mode := rfl
@[simp] theorem State.nextDraw_fault (s : State) : (s.nextDraw).fault = s.fault := rfl
@[simp] theorem State.nextDraw_params (s : State) : (s.nextDraw).params = s.params := rfl

@[simp] theorem State.poke_mem (s : State) (a : Nat) (b : Byte) :
    (s.poke a b).mem = Memory.write s.params.font s.mem a b := rfl
@[simp] theorem State.raise_fault (s : State) (o : Option Word) (f : Fault) :
    (s.raise o f).fault = some ⟨f, s.pc, o⟩ := rfl
@[simp] theorem State.nextDraw_rand (s : State) : s.nextDraw.rand = none := rfl
@[simp] theorem State.nextDraw_draws (s : State) : s.nextDraw.draws = s.draws + 1 := rfl

/-! ### The reads through accessors -/

@[simp] theorem State.setV_byteAt (s : State) (x : Nibble) (b : Byte) (a : Nat) : (s.setV x b).byteAt a = s.byteAt a := rfl
@[simp] theorem State.raise_byteAt (s : State) (o : Option Word) (f : Fault) (a : Nat) :
    (s.raise o f).byteAt a = s.byteAt a := rfl
@[simp] theorem State.nextDraw_byteAt (s : State) (a : Nat) : s.nextDraw.byteAt a = s.byteAt a := rfl
@[simp] theorem State.setKey_byteAt (s : State) (k : Nibble) (d : Bool) (a : Nat) : (s.setKey k d).byteAt a = s.byteAt a := rfl
@[simp] theorem State.poke_v (s : State) (a : Nat) (b : Byte) (x : Nibble) : (s.poke a b).v x = s.v x := rfl
@[simp] theorem State.raise_v (s : State) (o : Option Word) (f : Fault) (x : Nibble) : (s.raise o f).v x = s.v x := rfl
@[simp] theorem State.nextDraw_v (s : State) (x : Nibble) : s.nextDraw.v x = s.v x := rfl
@[simp] theorem State.setKey_v (s : State) (k : Nibble) (d : Bool) (x : Nibble) : (s.setKey k d).v x = s.v x := rfl
@[simp] theorem State.setV_keyDown (s : State) (x k : Nibble) (b : Byte) : (s.setV x b).keyDown k = s.keyDown k := rfl
@[simp] theorem State.setV_firstPressed (s : State) (x : Nibble) (b : Byte) : (s.setV x b).firstPressed = s.firstPressed := rfl

/-- What a write to a general register does to every register. -/
theorem State.v_setV (s : State) (x y : Nibble) (b : Byte) : (s.setV x b).v y = if y = x then b else s.v y := by
  by_cases h : y = x
  · subst h; simp [State.v, State.setV]
  · have h' : x.toNat ≠ y.toNat := fun e => h (BitVec.eq_of_toNat_eq e.symm)
    simp [State.v, State.setV, h, h']

@[simp] theorem State.v_setV_same (s : State) (x : Nibble) (b : Byte) : (s.setV x b).v x = b := by simp [State.v_setV]

theorem State.v_setV_other (s : State) {x y : Nibble} (b : Byte) (h : y ≠ x) : (s.setV x b).v y = s.v y := by
  simp [State.v_setV, h]

/-- What a key call does to every key. -/
theorem State.keyDown_setKey (s : State) (k j : Nibble) (d : Bool) :
    (s.setKey k d).keyDown j = if j = k then d else s.keyDown j := by
  by_cases h : j = k
  · subst h; simp [State.keyDown, State.setKey]
  · have h' : k.toNat ≠ j.toNat := fun e => h (BitVec.eq_of_toNat_eq e.symm)
    simp [State.keyDown, State.setKey, h, h']

@[simp] theorem State.keyDown_releaseAll (s : State) (k : Nibble) : s.releaseAll.keyDown k = false := by
  simp [State.keyDown, State.releaseAll]

end Sys2Proof.Machine
end

