-- ==== Sys2Proof/Laws/Display.lean ====
section
/-! SUPPORT. What the framebuffer port and the drawing loop do. -/

namespace Sys2Proof.Machine

/-- Toggling a pixel inverts it and no other. -/
theorem pixel_togglePixel (fb : Framebuffer) (x u : Fin 64) (y v : Fin 32) :
    pixel (togglePixel fb x y) u v = if u = x ∧ v = y then !pixel fb x y else pixel fb u v := by
  unfold pixel togglePixel
  by_cases hv : v = y
  · subst hv
    by_cases hu : u = x
    · subst hu; simp [pixel, Vector.get_eq_getElem]
    · have : x.val ≠ u.val := fun e => hu (Fin.ext e.symm)
      simp [hu, Vector.get_eq_getElem, this]
  · have : y.val ≠ v.val := fun e => hv (Fin.ext e.symm)
    simp [hv, Vector.get_eq_getElem, this]

/-- Two framebuffers with the same pixels are the same. -/
theorem Framebuffer.ext {f g : Framebuffer} (h : ∀ (x : Fin 64) (y : Fin 32), pixel f x y = pixel g x y) : f = g := by
  refine Vector.ext fun y hy => Vector.ext fun x hx => ?_
  exact h ⟨x, hx⟩ ⟨y, hy⟩

@[simp] theorem pixel_clear (x : Fin 64) (y : Fin 32) : pixel clearFramebuffer x y = false := by
  simp [pixel, clearFramebuffer, Vector.get_eq_getElem]

/-- What a faulting draw leaves (60_exceptions.md R120): the framebuffer, VF and the count of free values change. -/
theorem State.freeDrawing_spec (s : State) :
    (∃ fb regs, s.freeDrawing = { s with fb := fb, regs := regs, draws := s.draws + 1 }) ∧
      ∀ r : Nibble, r ≠ 15 → s.freeDrawing.v r = s.v r := by
  unfold State.freeDrawing
  generalize freeFramebuffer s.draws = fb
  exact ⟨⟨fb, _, rfl⟩, fun r hr => State.v_setV_other { s with fb := fb } _ hr⟩

/-- The drawing loop over rows that lie in memory succeeds, row by row. -/
theorem State.drawRows_ok (s : State) (start : Byte → Byte × Byte) : ∀ {rs : List Nat} {cv : Canvas},
    (∀ r ∈ rs, s.i.toNat + r < memSize) →
    s.drawRows start rs cv =
      .ok (rs.foldl (fun cv r => cv.drawColumns start r (s.byteAt (s.i.toNat + r)) (List.range 8)) cv)
  | [], _, _ => rfl
  | r :: rs, cv, h => by
    have hr := h r (List.mem_cons_self ..)
    simp only [State.drawRows, State.memRead, State.indexed, hr, if_true, List.foldl_cons]
    exact State.drawRows_ok s start (fun q hq => h q (List.mem_cons_of_mem _ hq))

/-- The drawing loop past the end of memory faults at the lowest address out of range. -/
theorem State.drawRows_error (s : State) (start : Byte → Byte × Byte) : ∀ (n : Nat) {m : Nat} {cv : Canvas},
    memSize < s.i.toNat + m + n → 0 < n →
    s.drawRows start (List.range' m n) cv = .error (.memoryBounds (max memSize (s.i.toNat + m)))
  | 0, _, _, _, hn => absurd hn (by omega)
  | n + 1, m, cv, h, _ => by
    rw [List.range'_succ]
    by_cases ha : s.i.toNat + m < memSize
    · simp only [State.drawRows, State.memRead, State.indexed, ha, if_true]
      rw [State.drawRows_error s start n (by omega) (by omega)]
      congr 2; omega
    · simp only [State.drawRows, State.memRead, State.indexed, ha, if_false]
      congr 2; omega

end Sys2Proof.Machine
end

