-- ==== Sys2Proof/Laws/Effects.lean ====
section
/-! SUPPORT. What the control-flow effects, the ends of an instruction, the fetch and the random draw do, said once. -/

namespace Sys2Proof.Machine

/-! ### The effects (40_fetch_execute.md R63) -/

@[simp] theorem State.applyEffect_noOp (s : State) (w : Word) : s.applyEffect w .noOp = s := rfl
@[simp] theorem State.applyEffect_advance (s : State) (w : Word) : s.applyEffect w .advance = { s with pc := s.pc + 2 } := rfl
@[simp] theorem State.applyEffect_skipNext (s : State) (w : Word) : s.applyEffect w .skipNext = { s with pc := s.pc + 4 } := rfl
@[simp] theorem State.applyEffect_jump (s : State) (w a : Word) : s.applyEffect w (.jump a) = { s with pc := a } := rfl
@[simp] theorem State.applyEffect_awaitKey (s : State) (w : Word) (r : Nibble) :
    s.applyEffect w (.awaitKey r) = { s with pc := s.pc + 2, mode := .awaitingKey r } := rfl
@[simp] theorem State.applyEffect_enter (s : State) (w a : Word) :
    s.applyEffect w (.enterSubroutine a) = s.enterSubroutine w a := rfl
@[simp] theorem State.applyEffect_exit (s : State) (w : Word) : s.applyEffect w .exitSubroutine = s.exitSubroutine w := rfl

/-- A push with room on the stack. -/
theorem State.enterSubroutine_room {s : State} (w a : Word) (h : s.sp.val < 16) :
    s.enterSubroutine w a =
      { s with stack := s.stack.set s.sp.val (s.pc + 2) h, sp := ⟨s.sp.val + 1, by omega⟩, pc := a } := by
  simp [State.enterSubroutine, h]

/-- A push on a full stack. -/
theorem State.enterSubroutine_full {s : State} (w a : Word) (h : ¬ s.sp.val < 16) :
    s.enterSubroutine w a = s.raise (some w) .stackOverflow := by
  simp [State.enterSubroutine, h]

/-- A pop of an entry. -/
theorem State.exitSubroutine_entry {s : State} (w : Word) (h : 0 < s.sp.val) :
    s.exitSubroutine w =
      { s with sp := ⟨s.sp.val - 1, by omega⟩, pc := s.stack[s.sp.val - 1]'(by omega) } := by
  simp [State.exitSubroutine, h]

/-- A pop of an empty stack. -/
theorem State.exitSubroutine_empty {s : State} (w : Word) (h : ¬ 0 < s.sp.val) :
    s.exitSubroutine w = s.raise (some w) .stackUnderflow := by
  simp [State.exitSubroutine, h]

/-- An effect touches the PC, the stack, the mode and the fault record, and nothing else. -/
theorem State.applyEffect_frame (s : State) (w : Word) (e : Effect) :
    ∃ pc stack sp mode fault,
      s.applyEffect w e = { s with pc := pc, stack := stack, sp := sp, mode := mode, fault := fault } := by
  cases e with
  | enterSubroutine a =>
    by_cases h : s.sp.val < 16
    · rw [State.applyEffect_enter, State.enterSubroutine_room w a h]; exact ⟨_, _, _, _, _, rfl⟩
    · rw [State.applyEffect_enter, State.enterSubroutine_full w a h]; exact ⟨_, _, _, _, _, rfl⟩
  | exitSubroutine =>
    by_cases h : 0 < s.sp.val
    · rw [State.applyEffect_exit, State.exitSubroutine_entry w h]; exact ⟨_, _, _, _, _, rfl⟩
    · rw [State.applyEffect_exit, State.exitSubroutine_empty w h]; exact ⟨_, _, _, _, _, rfl⟩
  | noOp | advance | awaitKey _ | skipNext | jump _ => exact ⟨_, _, _, _, _, rfl⟩

/-- What the step of an unmatched word can be (40_fetch_execute.md R71). -/
theorem State.unmatched_cases (s : State) (w : Word) :
    (s.params.unmatchedPolicy = .stall ∧ s.unmatched w = s) ∨
    (s.params.unmatchedPolicy = .advance ∧ s.unmatched w = { s with pc := s.pc + 2 }) ∨
    (s.params.unmatchedPolicy = .fault ∧ s.unmatched w = s.raise (some w) .illegalOpcode) := by
  unfold State.unmatched
  cases s.params.unmatchedPolicy <;> simp

/-- Raising a fault changes the fault record and nothing else (60_exceptions.md R118). -/
theorem State.sameBut_raise (s : State) (o : Option Word) (f : Fault) : s.SameBut (s.raise o f) [.fault] := by
  refine ⟨rfl, fun g hg => ?_⟩
  cases g <;> first | rfl | (intro _; rfl) | exact ⟨rfl, rfl⟩ | simp at hg

/-! ### Skips -/

@[simp] theorem skipIf_true : skipIf true = .skipNext := rfl
@[simp] theorem skipIf_false : skipIf false = .advance := rfl

/-- Applying the effect of a skip instruction. -/
theorem State.applyEffect_skipIf (s : State) (w : Word) (c : Bool) :
    s.applyEffect w (skipIf c) = { s with pc := if c then s.pc + 4 else s.pc + 2 } := by
  cases c <;> rfl

/-- The key number of a skip instruction (45_input_timers.md R109): in range under either mode it is the low nibble. -/
theorem keyIndex_cases (mode : KeyIndexMode) (v : Byte) :
    (¬ (mode = .fault ∧ 15 < v.toNat) ∧ keyIndex mode v = .ok (v.extractLsb' 0 4)) ∨
    (mode = .fault ∧ 15 < v.toNat ∧ keyIndex mode v = .error (.keyIndexRange v)) := by
  cases mode with
  | lowNibble => simp [keyIndex]
  | fault => by_cases h : 15 < v.toNat <;> simp [keyIndex, h]

/-! ### Fetch (40_fetch_execute.md R61) -/

/-- A fetch inside memory. -/
theorem State.fetch_ok {s : State} (h : s.pc.toNat + 1 < memSize) :
    s.fetch = .ok (wordOfBytes (s.byteAt s.pc.toNat) (s.byteAt (s.pc.toNat + 1))) := by
  have h0 : s.pc.toNat < memSize := by omega
  simp [State.fetch, State.memRead, h, h0]

/-- A fetch past the end of memory: the address at PC is checked first. -/
theorem State.fetch_error {s : State} (h : ¬ s.pc.toNat + 1 < memSize) :
    s.fetch = .error (.memoryBounds (max memSize s.pc.toNat)) := by
  by_cases h0 : s.pc.toNat < memSize
  · simp only [State.fetch, State.memRead, h0, h, if_true, if_false]; congr 2; omega
  · simp only [State.fetch, State.memRead, h0, if_false]; congr 2; omega

/-- A word is fetched only from inside memory. -/
theorem State.fetch_bound {s : State} {w : Word} (h : s.fetch = .ok w) : s.pc.toNat + 1 < memSize := by
  by_contra hn
  rw [State.fetch_error hn] at h
  cases h

/-! ### The random draw (60_exceptions.md R131) -/

theorem State.drawByte_cases (s : State) :
    (s.sample.available = true ∧ s.drawByte = .ok s.sample.byte) ∨
    (s.sample.available = false ∧ s.drawByte = .error .randomSourceFailure) := by
  unfold State.drawByte
  cases s.sample.available <;> simp

/-! ### The step (40_fetch_execute.md R60) -/

theorem step_halted {s : State} {f : FaultRecord} (h : s.fault = some f) : step s = .next s := by
  simp [step, interpreterStep, h]

theorem step_running {s : State} (h : s.fault = none) (hm : s.mode = .running) : step s = runningStep s := by
  simp [step, interpreterStep, h, hm]

theorem step_awaiting {s : State} {r : Nibble} (h : s.fault = none) (hm : s.mode = .awaitingKey r) :
    step s = awaitingStep r s := by
  simp [step, interpreterStep, h, hm]

theorem runningStep_ok {s : State} {w : Word} (h : s.fetch = .ok w) : runningStep s = executeWord w s := by
  simp [runningStep, h]

theorem runningStep_error {s : State} {f : Fault} (h : s.fetch = .error f) :
    runningStep s = .next (s.raise none f) := by
  simp [runningStep, h]

/-- A Running step in one of its three forms. -/
theorem runningStep_cases (s : State) :
    (∃ f, s.fetch = .error f ∧ runningStep s = .next (s.raise none f)) ∨
    (∃ w, s.fetch = .ok w ∧ decodeWord w = none ∧ runningStep s = .next (s.unmatched w)) ∨
    (∃ w i, s.fetch = .ok w ∧ decodeWord w = some i ∧ runningStep s = exec i s) := by
  cases hf : s.fetch with
  | error f => exact .inl ⟨f, rfl, runningStep_error hf⟩
  | ok w =>
    cases hd : decodeWord w with
    | none => exact .inr (.inl ⟨w, rfl, hd, by simp [runningStep_ok hf, executeWord, hd]⟩)
    | some i => exact .inr (.inr ⟨w, i, rfl, hd, by simp [runningStep_ok hf, executeWord, hd]⟩)

/-- A step in one of its forms: halted, waiting with no key, or a Running step of the state itself or of the state with
the key written. -/
theorem step_cases (s : State) :
    (s.fault ≠ none ∧ step s = .next s) ∨
    (∃ r, s.mode = .awaitingKey r ∧ s.firstPressed = none ∧ step s = .next s) ∨
    (s.fault = none ∧ s.mode = .running ∧ step s = runningStep s) ∨
    (∃ r k, s.fault = none ∧ s.mode = .awaitingKey r ∧ s.firstPressed = some k ∧
      step s = runningStep { s.setV r (k.setWidth 8) with mode := .running }) := by
  cases hf : s.fault with
  | some f => exact .inl ⟨by simp, step_halted hf⟩
  | none =>
    cases hm : s.mode with
    | running => exact .inr (.inr (.inl ⟨rfl, rfl, step_running hf hm⟩))
    | awaitingKey r =>
      cases hk : s.firstPressed with
      | none => exact .inr (.inl ⟨r, rfl, rfl, by simp [step_awaiting hf hm, awaitingStep, hk]⟩)
      | some k => exact .inr (.inr (.inr ⟨r, k, rfl, rfl, rfl, by simp [step_awaiting hf hm, awaitingStep, hk]⟩))

end Sys2Proof.Machine
end

