-- ==== Sys2Proof/Laws/Host.lean ====
section
/-! SUPPORT. What a host call refuses, and how a history of calls is taken apart. -/

namespace Sys2Proof.Machine

/-- A call that breaks the contract is refused, and a legal one is not one of those. -/
theorem perform_illegal {c : Command} (h : c.legal = false) (s : State) : ∃ r, perform c s = .refused r := by
  cases c with
  | press key =>
    have hk : ¬ key < 16 := by simpa [Command.legal] using h
    exact ⟨.keyOutOfRange key, by simp only [perform, hk, if_false]⟩
  | release key =>
    have hk : ¬ key < 16 := by simpa [Command.legal] using h
    exact ⟨.keyOutOfRange key, by simp only [perform, hk, if_false]⟩
  | reset | load _ | step | frame | releaseAll => cases h

@[simp] theorem runHistory_nil (s : State) : runHistory [] s = .next s := rfl

/-- The first call moves, and the rest of the history runs from where it leaves the machine. -/
theorem runHistory_cons {c : Command} {s t : State} (rest : History) (h : perform c s = .next t) :
    runHistory (c :: rest) s = runHistory rest t := by
  simp only [runHistory, h]

/-- A refused call ends the history. -/
theorem runHistory_cons_refused {c : Command} {s : State} {r : Refusal} (rest : History) (h : perform c s = .refused r) :
    runHistory (c :: rest) s = .refused r := by
  simp only [runHistory, h]

/-- What a history that ends in a state did: nothing, or a call that moved and then the rest. -/
theorem runHistory_next {calls : History} {s t : State} (h : runHistory calls s = .next t) :
    (calls = [] ∧ t = s) ∨
    ∃ c rest u, calls = c :: rest ∧ perform c s = .next u ∧ runHistory rest u = .next t := by
  cases calls with
  | nil => injection h with h; exact .inl ⟨rfl, h.symm⟩
  | cons c rest =>
    cases hp : perform c s with
    | next u => exact .inr ⟨c, rest, u, rfl, hp, by rw [← h, runHistory_cons rest hp]⟩
    | fault f => simp only [runHistory, hp] at h; cases h
    | refused r => simp only [runHistory, hp] at h; cases h

/-- A history in two parts: the second runs from where the first leaves the machine. -/
theorem runHistory_append (before after : History) : ∀ {s t : State}, runHistory before s = .next t →
    runHistory (before ++ after) s = runHistory after t := by
  induction before with
  | nil => intro s t h; injection h with h; rw [h]; rfl
  | cons c rest ih =>
    intro s t h
    rcases runHistory_next h with ⟨h0, _⟩ | ⟨_, _, u, h0, hp, hr⟩
    · cases h0
    · injection h0 with h1 h2
      subst h1 h2
      rw [List.cons_append, runHistory_cons _ hp, ih hr]

end Sys2Proof.Machine
end

