-- ==== Sys2Proof/Laws/Memory.lean ====
section
/-! SUPPORT. The laws of memory: a write is read back, leaves every other byte alone and keeps the canonical form; and what
each operation built on writes does. -/

namespace Sys2Proof.Machine

/-! ### The list of cells -/

theorem Memory.wfFrom_cons {font : Font} {lo k : Nat} {b : Byte} {rest : Memory} :
    Memory.wfFrom font lo ((k, b) :: rest) = true ↔
      lo ≤ k ∧ k < memSize ∧ b ≠ Memory.unlisted font k ∧ Memory.wfFrom font (k + 1) rest = true := by
  simp [Memory.wfFrom, and_assoc]

theorem Memory.wfFrom_mono {font : Font} {lo lo' : Nat} (h : lo' ≤ lo) :
    ∀ {m : Memory}, Memory.wfFrom font lo m = true → Memory.wfFrom font lo' m = true
  | [], _ => rfl
  | (_, _) :: _, hw => by
    rw [Memory.wfFrom_cons] at hw ⊢
    exact ⟨by omega, hw.2⟩

/-- An address below every listed one reads as unlisted. -/
theorem Memory.read_below {font : Font} {a lo : Nat} (h : a < lo) :
    ∀ {m : Memory}, Memory.wfFrom font lo m = true → Memory.read font m a = Memory.unlisted font a
  | [], _ => rfl
  | (k, b) :: rest, hw => by
    rw [Memory.wfFrom_cons] at hw
    have hne : a ≠ k := by omega
    simp only [Memory.read, hne, if_false]
    exact Memory.read_below (by omega) hw.2.2.2

/-- A write keeps the canonical form. -/
theorem Memory.write_wfFrom {font : Font} {a : Nat} (v : Byte) (ha : a < memSize) :
    ∀ {lo : Nat} {m : Memory}, lo ≤ a → Memory.wfFrom font lo m = true →
      Memory.wfFrom font lo (Memory.write font m a v) = true
  | lo, [], hlo, _ => by
    simp only [Memory.write]
    split
    · rfl
    · rw [Memory.wfFrom_cons]; exact ⟨hlo, ha, ‹_›, rfl⟩
  | lo, (k, b) :: rest, hlo, hw => by
    have h := Memory.wfFrom_cons.1 hw
    simp only [Memory.write]
    split
    · split
      · exact hw
      · exact Memory.wfFrom_cons.2 ⟨hlo, ha, ‹_›, Memory.wfFrom_cons.2 ⟨by omega, h.2⟩⟩
    · split
      · subst_vars
        split
        · exact Memory.wfFrom_mono (by omega) h.2.2.2
        · exact Memory.wfFrom_cons.2 ⟨h.1, h.2.1, ‹_›, h.2.2.2⟩
      · exact Memory.wfFrom_cons.2 ⟨h.1, h.2.1, h.2.2.1, Memory.write_wfFrom v ha (by omega) h.2.2.2⟩

theorem Memory.write_wf {font : Font} {a : Nat} (v : Byte) (ha : a < memSize) {m : Memory}
    (h : Memory.wf font m = true) : Memory.wf font (Memory.write font m a v) = true :=
  Memory.write_wfFrom v ha (Nat.zero_le a) h

/-- A write leaves every other byte alone, in any list of cells. -/
theorem Memory.read_write_other {font : Font} {a c : Nat} (v : Byte) (h : c ≠ a) :
    ∀ m : Memory, Memory.read font (Memory.write font m a v) c = Memory.read font m c
  | [] => by simp only [Memory.write]; split <;> simp [Memory.read, h]
  | (k, b) :: rest => by
    simp only [Memory.write]
    split
    · split <;> simp [Memory.read, h]
    · split
      · subst_vars; split <;> simp [Memory.read, h]
      · simp only [Memory.read]; rw [Memory.read_write_other v h rest]

/-- A write to a canonical memory is read back. -/
theorem Memory.read_write_same {font : Font} (a : Nat) (v : Byte) :
    ∀ {lo : Nat} {m : Memory}, Memory.wfFrom font lo m = true →
      Memory.read font (Memory.write font m a v) a = v
  | lo, [], _ => by simp only [Memory.write]; split <;> simp [Memory.read, *]
  | lo, (k, b) :: rest, hw => by
    have h := Memory.wfFrom_cons.1 hw
    simp only [Memory.write]
    split
    · rename_i hak
      split
      · rename_i hv
        have hne : a ≠ k := by omega
        rw [Memory.read, if_neg hne, Memory.read_below (lo := k + 1) (by omega) h.2.2.2, hv]
      · simp [Memory.read]
    · split
      · subst_vars
        split
        · rename_i hv
          rw [Memory.read_below (lo := k + 1) (by omega) h.2.2.2, hv]
        · simp [Memory.read]
      · rw [Memory.read, if_neg ‹_›]
        exact Memory.read_write_same a v h.2.2.2

/-! ### The machine's memory -/

/-- Putting a byte: it is read back where the memory is canonical. -/
theorem State.byteAt_poke_same {s : State} (h : s.MemWf) (a : Nat) (b : Byte) : (s.poke a b).byteAt a = b :=
  Memory.read_write_same a b h

/-- Putting a byte leaves every other byte alone. -/
theorem State.byteAt_poke_other (s : State) {a c : Nat} (b : Byte) (h : c ≠ a) : (s.poke a b).byteAt c = s.byteAt c :=
  Memory.read_write_other b h s.mem

/-- Putting a byte in range keeps the canonical form. -/
theorem State.memWf_poke {s : State} (h : s.MemWf) {a : Nat} (ha : a < memSize) (b : Byte) : (s.poke a b).MemWf :=
  Memory.write_wf b ha h

/-- A fresh machine's memory is canonical. -/
theorem State.memWf_construct (p : Params) : (State.construct p).MemWf := rfl

/-! ### Storing bytes (20_memory.md R38) -/

/-- Storing bytes that lie in memory succeeds, and changes memory only. -/
theorem State.storeBytes_ok : ∀ {s : State} {a : Nat} {bs : List Byte}, a + bs.length ≤ memSize →
    ∃ t, s.storeBytes a bs = .ok t ∧ t = { s with mem := t.mem } ∧
      (∀ c, c < a ∨ a + bs.length ≤ c → t.byteAt c = s.byteAt c) ∧
      (s.MemWf → t.MemWf ∧ ∀ k b, bs[k]? = some b → t.byteAt (a + k) = b)
  | s, a, [], _ => ⟨s, rfl, rfl, fun _ _ => rfl, fun hw => ⟨hw, by simp⟩⟩
  | s, a, b :: bs, h => by
    simp only [List.length_cons] at h
    have ha : a < memSize := by omega
    obtain ⟨t, h1, h2, h3, h4⟩ := State.storeBytes_ok (s := s.poke a b) (a := a + 1) (bs := bs) (by omega)
    refine ⟨t, ?_, by rw [h2]; rfl, ?_, ?_⟩
    · simp [State.storeBytes, State.memWrite, ha, h1]
    · intro c hc
      simp only [List.length_cons] at hc
      rw [h3 c (by omega), State.byteAt_poke_other s b (by omega)]
    · intro hw
      obtain ⟨h5, h6⟩ := h4 (State.memWf_poke hw ha b)
      refine ⟨h5, ?_⟩
      intro k v hk
      cases k with
      | zero =>
        have : b = v := by simpa using hk
        rw [Nat.add_zero, h3 a (by omega), State.byteAt_poke_same hw, this]
      | succ k =>
        rw [show a + (k + 1) = a + 1 + k by omega]
        exact h6 k v (by simpa using hk)

/-- Storing bytes past the end of memory faults at the lowest address out of range. -/
theorem State.storeBytes_error : ∀ {s : State} {a : Nat} {bs : List Byte}, bs ≠ [] → memSize < a + bs.length →
    s.storeBytes a bs = .error (.memoryBounds (max memSize a))
  | _, _, [], hne, _ => absurd rfl hne
  | s, a, b :: bs, _, h => by
    simp only [List.length_cons] at h
    by_cases ha : a < memSize
    · have hbs : bs ≠ [] := by rintro rfl; simp at h; omega
      simp only [State.storeBytes, State.memWrite, ha, if_true]
      rw [State.storeBytes_error hbs (by omega)]
      congr 2; omega
    · simp only [State.storeBytes, State.memWrite, ha, if_false]
      congr 2; omega

/-- The fold of a faulting store changes memory only, and there only the listed bytes in range. -/
theorem State.pokes_spec (d a : Nat) : ∀ (ks : List Nat) (s : State), ∃ t : State,
    ks.foldl (fun t k => if a + k < memSize then t.poke (a + k) (Config.freeByte d k) else t) s = t ∧
      t = { s with mem := t.mem } ∧ (s.MemWf → t.MemWf) ∧
      ∀ c, (∀ k ∈ ks, c ≠ a + k) ∨ memSize ≤ c → t.byteAt c = s.byteAt c
  | [], s => ⟨s, rfl, rfl, id, fun _ _ => rfl⟩
  | k :: ks, s => by
    simp only [List.foldl_cons]
    by_cases hk : a + k < memSize
    · simp only [hk, if_true]
      obtain ⟨t, h1, h2, h3, h4⟩ := State.pokes_spec d a ks (s.poke (a + k) (Config.freeByte d k))
      refine ⟨t, h1, by rw [h2]; rfl, fun hw => h3 (State.memWf_poke hw hk _), fun c hc => ?_⟩
      rw [h4 c (hc.imp (fun h j hj => h j (List.mem_cons_of_mem _ hj)) id)]
      refine State.byteAt_poke_other s _ ?_
      rcases hc with h | h
      · exact h k (List.mem_cons_self ..)
      · omega
    · simp only [hk, if_false]
      obtain ⟨t, h1, h2, h3, h4⟩ := State.pokes_spec d a ks s
      exact ⟨t, h1, h2, h3, fun c hc => h4 c (hc.imp (fun h j hj => h j (List.mem_cons_of_mem _ hj)) id)⟩

/-- What a faulting store leaves (60_exceptions.md R120): memory and the count of free values change, nothing else, and of
memory only the listed bytes in range. -/
theorem State.freeStore_spec (s : State) (a : Nat) (ks : List Nat) :
    s.freeStore a ks = { s with mem := (s.freeStore a ks).mem, draws := s.draws + 1 } ∧
      (s.MemWf → (s.freeStore a ks).MemWf) ∧
      ∀ c, (∀ k ∈ ks, c ≠ a + k) ∨ memSize ≤ c → (s.freeStore a ks).byteAt c = s.byteAt c := by
  obtain ⟨t, h1, h2, h3, h4⟩ := State.pokes_spec s.draws a ks s
  unfold State.freeStore
  rw [h1]
  refine ⟨by rw [h2], ?_, ?_⟩
  · intro hw; exact h3 hw
  · intro c hc; exact h4 c hc

/-! ### Loading a program (20_memory.md R42) -/

theorem State.loadFrom_spec : ∀ (bs : List Byte) (s : State) (a : Nat), ∃ t : State, s.loadFrom a bs = t ∧
    t = { s with mem := t.mem } ∧
    (∀ c, c < a ∨ a + bs.length ≤ c ∨ memSize ≤ c → t.byteAt c = s.byteAt c) ∧
    (s.MemWf → t.MemWf ∧ ∀ k b, bs[k]? = some b → a + k < memSize → t.byteAt (a + k) = b)
  | [], s, a => ⟨s, rfl, rfl, fun _ _ => rfl, fun hw => ⟨hw, by simp⟩⟩
  | b :: bs, s, a => by
    simp only [State.loadFrom, List.length_cons]
    by_cases ha : a < memSize
    · simp only [ha, if_true]
      obtain ⟨t, h1, h2, h3, h4⟩ := State.loadFrom_spec bs (s.poke a b) (a + 1)
      refine ⟨t, h1, by rw [h2]; rfl, ?_, ?_⟩
      · intro c hc
        rw [h3 c (by omega), State.byteAt_poke_other s b (by omega)]
      · intro hw
        obtain ⟨h5, h6⟩ := h4 (State.memWf_poke hw ha b)
        refine ⟨h5, ?_⟩
        intro k v hk hlt
        cases k with
        | zero =>
          have : b = v := by simpa using hk
          rw [Nat.add_zero, h3 a (by omega), State.byteAt_poke_same hw, this]
        | succ k =>
          rw [show a + (k + 1) = a + 1 + k by omega]
          exact h6 k v (by simpa using hk) (by omega)
    · simp only [ha, if_false]
      obtain ⟨t, h1, h2, h3, h4⟩ := State.loadFrom_spec bs s (a + 1)
      exact ⟨t, h1, h2, fun c hc => h3 c (by omega), fun hw => ⟨(h4 hw).1, fun k v hk hlt => by omega⟩⟩

end Sys2Proof.Machine
end

