-- ==== Sys2Proof/Laws/PerInstr.lean ====
section
/-! SUPPORT. One lemma per instruction: its word is selected by its own row of the opcode map, which builds it back
(30_encoding.md R54, R59). -/

namespace Sys2Proof.Laws.RowMatch

/-- Some row of the opcode map selects the instruction's word and builds the instruction from it. -/
def Statement (i : Instr) : Prop := ∃ r ∈ opcodeTable, r.selects (encode i) = true ∧ r.build (encode i) = i

/-- A row at a place of the map that selects the word and builds the instruction. -/
theorem of_row {i : Instr} (k : Nat) {r : OpcodeRow} (h : opcodeTable[k]? = some r)
    (hs : (encode i &&& r.mask).toNat = r.value.toNat) (hb : r.build (encode i) = i) : Statement i :=
  ⟨r, List.mem_of_getElem? h, (OpcodeRow.selects_iff r _).2 (BitVec.eq_of_toNat_eq hs), hb⟩

theorem fields_nnn (p : Nibble) (nnn : Addr) : fieldNnn (p ++ nnn : Word) = nnn := by
  apply BitVec.eq_of_toNat_eq
  rw [toNat_fieldNnn, toNat_nnn]
  have := nnn.isLt
  omega

theorem fields_xkk (p x : Nibble) (kk : Byte) :
    fieldX (p ++ x ++ kk : Word) = x ∧ fieldKk (p ++ x ++ kk : Word) = kk := by
  have := x.isLt
  have := kk.isLt
  constructor <;> apply BitVec.eq_of_toNat_eq
  · rw [toNat_fieldX, toNat_xkk]; omega
  · rw [toNat_fieldKk, toNat_xkk]; omega

theorem fields_xyn (p x y n : Nibble) :
    fieldX (p ++ x ++ y ++ n : Word) = x ∧ fieldY (p ++ x ++ y ++ n : Word) = y ∧ fieldN (p ++ x ++ y ++ n : Word) = n := by
  have := x.isLt
  have := y.isLt
  have := n.isLt
  refine ⟨?_, ?_, ?_⟩ <;> apply BitVec.eq_of_toNat_eq
  · rw [toNat_fieldX, toNat_xyn]; omega
  · rw [toNat_fieldY, toNat_xyn]; omega
  · rw [toNat_fieldN, toNat_xyn]; omega

theorem mask_nnn (p : Nibble) (nnn : Addr) : ((p ++ nnn : Word) &&& 0xF000#16).toNat = p.toNat * 4096 := by
  have := nnn.isLt
  rw [toNat_and_F000, toNat_nnn]; omega

theorem mask_xkk (p x : Nibble) (kk : Byte) : ((p ++ x ++ kk : Word) &&& 0xF000#16).toNat = p.toNat * 4096 := by
  have := x.isLt
  have := kk.isLt
  rw [toNat_and_F000, toNat_xkk]; omega

theorem mask_xkk_fixed (p x : Nibble) (kk : Byte) :
    ((p ++ x ++ kk : Word) &&& 0xF0FF#16).toNat = p.toNat * 4096 + kk.toNat := by
  have := x.isLt
  have := kk.isLt
  rw [toNat_and_F0FF, toNat_xkk]; omega

theorem mask_xyn (p x y n : Nibble) : ((p ++ x ++ y ++ n : Word) &&& 0xF000#16).toNat = p.toNat * 4096 := by
  have := x.isLt
  have := y.isLt
  have := n.isLt
  rw [toNat_and_F000, toNat_xyn]; omega

theorem mask_xyn_fixed (p x y n : Nibble) :
    ((p ++ x ++ y ++ n : Word) &&& 0xF00F#16).toNat = p.toNat * 4096 + n.toNat := by
  have := x.isLt
  have := y.isLt
  have := n.isLt
  rw [toNat_and_F00F, toNat_xyn]; omega

/-! ### The instructions, in the order of the map -/

theorem cls : Statement (.cls) :=
  of_row 0 rfl rfl rfl

theorem ret : Statement (.ret) :=
  of_row 1 rfl rfl rfl

theorem jp (nnn : Addr) : Statement (.jp nnn) :=
  of_row 2 rfl (mask_nnn 0x1#4 nnn) (congrArg Instr.jp (fields_nnn 0x1#4 nnn))

theorem call (nnn : Addr) : Statement (.call nnn) :=
  of_row 3 rfl (mask_nnn 0x2#4 nnn) (congrArg Instr.call (fields_nnn 0x2#4 nnn))

theorem seImm (x : Nibble) (kk : Byte) : Statement (.seImm x kk) :=
  of_row 4 rfl (mask_xkk 0x3#4 x kk)
    (by have h := fields_xkk 0x3#4 x kk; exact congrArg₂ Instr.seImm h.1 h.2)

theorem sneImm (x : Nibble) (kk : Byte) : Statement (.sneImm x kk) :=
  of_row 5 rfl (mask_xkk 0x4#4 x kk)
    (by have h := fields_xkk 0x4#4 x kk; exact congrArg₂ Instr.sneImm h.1 h.2)

theorem seReg (x y : Nibble) : Statement (.seReg x y) :=
  of_row 6 rfl (mask_xyn_fixed 0x5#4 x y 0x0#4)
    (by have h := fields_xyn 0x5#4 x y 0x0#4; exact congrArg₂ Instr.seReg h.1 h.2.1)

theorem ldImm (x : Nibble) (kk : Byte) : Statement (.ldImm x kk) :=
  of_row 7 rfl (mask_xkk 0x6#4 x kk)
    (by have h := fields_xkk 0x6#4 x kk; exact congrArg₂ Instr.ldImm h.1 h.2)

theorem addImm (x : Nibble) (kk : Byte) : Statement (.addImm x kk) :=
  of_row 8 rfl (mask_xkk 0x7#4 x kk)
    (by have h := fields_xkk 0x7#4 x kk; exact congrArg₂ Instr.addImm h.1 h.2)

theorem ldReg (x y : Nibble) : Statement (.ldReg x y) :=
  of_row 9 rfl (mask_xyn_fixed 0x8#4 x y 0x0#4)
    (by have h := fields_xyn 0x8#4 x y 0x0#4; exact congrArg₂ Instr.ldReg h.1 h.2.1)

theorem orReg (x y : Nibble) : Statement (.orReg x y) :=
  of_row 10 rfl (mask_xyn_fixed 0x8#4 x y 0x1#4)
    (by have h := fields_xyn 0x8#4 x y 0x1#4; exact congrArg₂ Instr.orReg h.1 h.2.1)

theorem andReg (x y : Nibble) : Statement (.andReg x y) :=
  of_row 11 rfl (mask_xyn_fixed 0x8#4 x y 0x2#4)
    (by have h := fields_xyn 0x8#4 x y 0x2#4; exact congrArg₂ Instr.andReg h.1 h.2.1)

theorem xorReg (x y : Nibble) : Statement (.xorReg x y) :=
  of_row 12 rfl (mask_xyn_fixed 0x8#4 x y 0x3#4)
    (by have h := fields_xyn 0x8#4 x y 0x3#4; exact congrArg₂ Instr.xorReg h.1 h.2.1)

theorem addReg (x y : Nibble) : Statement (.addReg x y) :=
  of_row 13 rfl (mask_xyn_fixed 0x8#4 x y 0x4#4)
    (by have h := fields_xyn 0x8#4 x y 0x4#4; exact congrArg₂ Instr.addReg h.1 h.2.1)

theorem subReg (x y : Nibble) : Statement (.subReg x y) :=
  of_row 14 rfl (mask_xyn_fixed 0x8#4 x y 0x5#4)
    (by have h := fields_xyn 0x8#4 x y 0x5#4; exact congrArg₂ Instr.subReg h.1 h.2.1)

theorem shr (x y : Nibble) : Statement (.shr x y) :=
  of_row 15 rfl (mask_xyn_fixed 0x8#4 x y 0x6#4)
    (by have h := fields_xyn 0x8#4 x y 0x6#4; exact congrArg₂ Instr.shr h.1 h.2.1)

theorem subnReg (x y : Nibble) : Statement (.subnReg x y) :=
  of_row 16 rfl (mask_xyn_fixed 0x8#4 x y 0x7#4)
    (by have h := fields_xyn 0x8#4 x y 0x7#4; exact congrArg₂ Instr.subnReg h.1 h.2.1)

theorem shl (x y : Nibble) : Statement (.shl x y) :=
  of_row 17 rfl (mask_xyn_fixed 0x8#4 x y 0xE#4)
    (by have h := fields_xyn 0x8#4 x y 0xE#4; exact congrArg₂ Instr.shl h.1 h.2.1)

theorem sneReg (x y : Nibble) : Statement (.sneReg x y) :=
  of_row 18 rfl (mask_xyn_fixed 0x9#4 x y 0x0#4)
    (by have h := fields_xyn 0x9#4 x y 0x0#4; exact congrArg₂ Instr.sneReg h.1 h.2.1)

theorem ldI (nnn : Addr) : Statement (.ldI nnn) :=
  of_row 19 rfl (mask_nnn 0xA#4 nnn) (congrArg Instr.ldI (fields_nnn 0xA#4 nnn))

theorem jpV0 (nnn : Addr) : Statement (.jpV0 nnn) :=
  of_row 20 rfl (mask_nnn 0xB#4 nnn) (congrArg Instr.jpV0 (fields_nnn 0xB#4 nnn))

theorem rnd (x : Nibble) (kk : Byte) : Statement (.rnd x kk) :=
  of_row 21 rfl (mask_xkk 0xC#4 x kk)
    (by have h := fields_xkk 0xC#4 x kk; exact congrArg₂ Instr.rnd h.1 h.2)

theorem drw (x y n : Nibble) : Statement (.drw x y n) :=
  of_row 22 rfl (mask_xyn 0xD#4 x y n)
    (by have h := fields_xyn 0xD#4 x y n; show Instr.drw _ _ _ = _; rw [encode, h.1, h.2.1, h.2.2])

theorem skp (x : Nibble) : Statement (.skp x) :=
  of_row 23 rfl (mask_xkk_fixed 0xE#4 x 0x9E#8) (congrArg Instr.skp (fields_xkk 0xE#4 x 0x9E#8).1)

theorem sknp (x : Nibble) : Statement (.sknp x) :=
  of_row 24 rfl (mask_xkk_fixed 0xE#4 x 0xA1#8) (congrArg Instr.sknp (fields_xkk 0xE#4 x 0xA1#8).1)

theorem ldVxDt (x : Nibble) : Statement (.ldVxDt x) :=
  of_row 25 rfl (mask_xkk_fixed 0xF#4 x 0x07#8) (congrArg Instr.ldVxDt (fields_xkk 0xF#4 x 0x07#8).1)

theorem ldVxK (x : Nibble) : Statement (.ldVxK x) :=
  of_row 26 rfl (mask_xkk_fixed 0xF#4 x 0x0A#8) (congrArg Instr.ldVxK (fields_xkk 0xF#4 x 0x0A#8).1)

theorem ldDtVx (x : Nibble) : Statement (.ldDtVx x) :=
  of_row 27 rfl (mask_xkk_fixed 0xF#4 x 0x15#8) (congrArg Instr.ldDtVx (fields_xkk 0xF#4 x 0x15#8).1)

theorem ldStVx (x : Nibble) : Statement (.ldStVx x) :=
  of_row 28 rfl (mask_xkk_fixed 0xF#4 x 0x18#8) (congrArg Instr.ldStVx (fields_xkk 0xF#4 x 0x18#8).1)

theorem addIVx (x : Nibble) : Statement (.addIVx x) :=
  of_row 29 rfl (mask_xkk_fixed 0xF#4 x 0x1E#8) (congrArg Instr.addIVx (fields_xkk 0xF#4 x 0x1E#8).1)

theorem ldFVx (x : Nibble) : Statement (.ldFVx x) :=
  of_row 30 rfl (mask_xkk_fixed 0xF#4 x 0x29#8) (congrArg Instr.ldFVx (fields_xkk 0xF#4 x 0x29#8).1)

theorem ldBVx (x : Nibble) : Statement (.ldBVx x) :=
  of_row 31 rfl (mask_xkk_fixed 0xF#4 x 0x33#8) (congrArg Instr.ldBVx (fields_xkk 0xF#4 x 0x33#8).1)

theorem ldMemVx (x : Nibble) : Statement (.ldMemVx x) :=
  of_row 32 rfl (mask_xkk_fixed 0xF#4 x 0x55#8) (congrArg Instr.ldMemVx (fields_xkk 0xF#4 x 0x55#8).1)

theorem ldVxMem (x : Nibble) : Statement (.ldVxMem x) :=
  of_row 33 rfl (mask_xkk_fixed 0xF#4 x 0x65#8) (congrArg Instr.ldVxMem (fields_xkk 0xF#4 x 0x65#8).1)

end Sys2Proof.Laws.RowMatch
end

