-- ==== Sys2Proof/Laws/Registers.lean ====
section
/-! SUPPORT. What loading registers from memory does, and what a flag write and a result write leave. -/

namespace Sys2Proof.Machine

/-- A list of register numbers below 16, read back. -/
theorem toNat_ofNat_four {k : Nat} (h : k < 16) : (BitVec.ofNat 4 k).toNat = k := by
  simp [Nat.mod_eq_of_lt h]

/-- The register numbers up to `x` are below 16. -/
theorem registersTo_lt {x : Nibble} {k : Nat} (h : k ∈ registersTo x) : k < 16 := by
  have := x.isLt
  simp only [registersTo, List.mem_range] at h
  omega

theorem mem_registersTo {x : Nibble} {k : Nat} : k ∈ registersTo x ↔ k ≤ x.toNat := by
  simp [registersTo]

theorem registersTo_length (x : Nibble) : (registersTo x).length = x.toNat + 1 := by simp [registersTo]

theorem valuesTo_length (s : State) (x : Nibble) : (s.valuesTo x).length = x.toNat + 1 := by
  simp [State.valuesTo, registersTo_length]

/-- The value at a place of `V[0] .. V[x]`. -/
theorem valuesTo_get (s : State) {x r : Nibble} (h : r.toNat ≤ x.toNat) :
    (s.valuesTo x)[r.toNat]? = some (s.v r) := by
  have : r.toNat < x.toNat + 1 := by omega
  simp [State.valuesTo, registersTo, this]

/-- A byte sum of flags and results is written to VF and `V[x]` alone. -/
theorem State.writeFlagged_frame (s : State) (x y : Nibble) (flag result : Byte → Byte → Byte) :
    s.writeFlagged x y flag result = { s with regs := (s.writeFlagged x y flag result).regs } := by
  unfold State.writeFlagged
  cases s.params.aluVfOrder <;> rfl

/-! ### The flag computations (42_alu.md R86, R87) -/

@[simp] theorem toNat_flagOf (c : Bool) : (flagOf c).toNat = if c then 1 else 0 := by cases c <;> rfl

theorem toNat_carryFlag (a b : Byte) : (carryFlag a b).toNat = if 255 < a.toNat + b.toNat then 1 else 0 := by
  simp [carryFlag]

theorem toNat_notBorrowFlag (a b : Byte) : (notBorrowFlag a b).toNat = if b.toNat < a.toNat then 1 else 0 := by
  simp [notBorrowFlag]

theorem toNat_satSub (a b : Byte) : (satSub a b).toNat = a.toNat - b.toNat := by
  have := a.isLt
  rw [satSub, BitVec.toNat_ofNat]
  omega

theorem toNat_lowBit (a : Byte) : (lowBit a).toNat = a.toNat % 2 := by
  rw [lowBit, BitVec.toNat_and]
  exact Nat.and_one_is_mod _

theorem toNat_highBit (a : Byte) : (highBit a).toNat = a.toNat / 128 := by
  rw [highBit, BitVec.toNat_ushiftRight, Nat.shiftRight_eq_div_pow]

/-- Every register after a flag write and a result write, under either order. -/
theorem State.v_writeFlagged (s : State) (x y : Nibble) (flag result : Byte → Byte → Byte) (r : Nibble) :
    (s.writeFlagged x y flag result).v r =
      let f := flag (s.v x) (s.v y)
      if s.params.aluVfOrder = .sequential then
        if r = x then result (if x = 15 then f else s.v x) (if y = 15 then f else s.v y)
        else if r = 15 then f else s.v r
      else if r = 15 then f else if r = x then result (s.v x) (s.v y) else s.v r := by
  cases h : s.params.aluVfOrder with
  | sequential =>
    simp only [State.writeFlagged, h, State.v_setV, if_true]
    rfl
  | flagLast =>
    simp only [State.writeFlagged, h, State.v_setV, reduceCtorEq, if_false]
    rfl

/-- Loading registers from bytes that lie in memory succeeds, and changes the listed registers only. -/
theorem State.loadRegisters_ok (a : Nat) : ∀ {ks : List Nat} {s : State},
    (∀ k ∈ ks, k < 16 ∧ a + k < memSize) →
    ∃ t, s.loadRegisters a ks = .ok t ∧ t = { s with regs := t.regs } ∧
      (∀ r : Nibble, r.toNat ∈ ks → t.v r = s.byteAt (a + r.toNat)) ∧
      ∀ r : Nibble, r.toNat ∉ ks → t.v r = s.v r
  | [], s, _ => ⟨s, rfl, rfl, by simp, fun _ _ => rfl⟩
  | k :: ks, s, h => by
    have hk := h k (List.mem_cons_self ..)
    obtain ⟨t, h1, h2, h3, h4⟩ := State.loadRegisters_ok a (ks := ks) (s := s.setV (BitVec.ofNat 4 k) (s.byteAt (a + k)))
      (fun j hj => h j (List.mem_cons_of_mem _ hj))
    have hreg : ∀ r : Nibble, r = BitVec.ofNat 4 k ↔ r.toNat = k := fun r => by
      rw [BitVec.toNat_eq, toNat_ofNat_four hk.1]
    refine ⟨t, ?_, by rw [h2]; rfl, ?_, ?_⟩
    · simp [State.loadRegisters, State.memRead, hk.2, h1]
    · intro r hr
      by_cases hm : r.toNat ∈ ks
      · exact h3 r hm
      · have hrk : r.toNat = k := by simpa [hm] using hr
        rw [h4 r hm, State.v_setV, if_pos ((hreg r).2 hrk), hrk]
    · intro r hr
      have hr' : r.toNat ≠ k ∧ r.toNat ∉ ks := by simpa using hr
      rw [h4 r hr'.2, State.v_setV, if_neg (fun e => hr'.1 ((hreg r).1 e))]

/-- Loading registers past the end of memory faults at the lowest address out of range. -/
theorem State.loadRegisters_error (a : Nat) : ∀ (n : Nat) {m : Nat} {s : State}, memSize < a + m + n → 0 < n →
    s.loadRegisters a (List.range' m n) = .error (.memoryBounds (max memSize (a + m)))
  | 0, _, _, _, hn => absurd hn (by omega)
  | n + 1, m, s, h, _ => by
    rw [List.range'_succ]
    by_cases ha : a + m < memSize
    · simp only [State.loadRegisters, State.memRead, ha, if_true]
      rw [State.loadRegisters_error a n (by omega) (by omega)]
      congr 2; omega
    · simp only [State.loadRegisters, State.memRead, ha, if_false]
      congr 2; omega

theorem State.setVs_spec (d : Nat) : ∀ (ks : List Nat) (s : State), (∀ k ∈ ks, k < 16) → ∃ t : State,
    ks.foldl (fun t k => t.setV (BitVec.ofNat 4 k) (Config.freeByte d k)) s = t ∧
      t = { s with regs := t.regs } ∧ ∀ r : Nibble, r.toNat ∉ ks → t.v r = s.v r
  | [], s, _ => ⟨s, rfl, rfl, fun _ _ => rfl⟩
  | k :: ks, s, h => by
    obtain ⟨t, h1, h2, h3⟩ := State.setVs_spec d ks (s.setV (BitVec.ofNat 4 k) (Config.freeByte d k))
      (fun j hj => h j (List.mem_cons_of_mem _ hj))
    refine ⟨t, h1, by rw [h2]; rfl, fun r hr => ?_⟩
    have hr' : r.toNat ≠ k ∧ r.toNat ∉ ks := by simpa using hr
    rw [h3 r hr'.2, State.v_setV, if_neg]
    intro e
    exact hr'.1 (by rw [e, toNat_ofNat_four (h k (List.mem_cons_self ..))])

/-- What a faulting load leaves (60_exceptions.md R120): the listed registers and the count of free values change. -/
theorem State.freeRegisters_spec (s : State) (ks : List Nat) (h : ∀ k ∈ ks, k < 16) :
    s.freeRegisters ks = { s with regs := (s.freeRegisters ks).regs, draws := s.draws + 1 } ∧
      ∀ r : Nibble, r.toNat ∉ ks → (s.freeRegisters ks).v r = s.v r := by
  obtain ⟨t, h1, h2, h3⟩ := State.setVs_spec s.draws ks s h
  unfold State.freeRegisters
  rw [h1]
  refine ⟨by rw [h2], fun r hr => ?_⟩
  exact h3 r hr

end Sys2Proof.Machine
end

