-- ==== Sys2Proof/Tests/Slice0.lean ====
section
/-! SUPPORT. The model's own tests. Expected results come from the vectors of 95_test_vectors.md (their ids stand in the
comments) or from the cited rules by hand; words are written out from the opcode map of 30_encoding.md R54. -/

namespace Sys2Proof.Tests

open Sys2Proof.Machine

/-- The reset machine with a word where the next step fetches it (at 0x200). -/
def at0 (w : Nat) : State := State.reset.withFetchWord 16 w

/-- The next state of an outcome holds `p`. -/
def gives (o : Out) (p : State → Bool) : Bool :=
  match o with
  | .next t => p t
  | .fault _ => false
  | .refused _ => false

/-- The fault record of a state is this one. -/
def failed (t : State) (f : Fault) (pc : Word) (opcode : Option Word) : Bool :=
  decide (t.fault = some ⟨f, pc, opcode⟩)

/-- A machine with other parameters. -/
def under (s : State) (p : Params → Params) : State := { s with params := p s.params }

/-- A machine with this I. -/
def withI (a : Word) (s : State) : State := { s with i := a }

/-- A machine with this screen. -/
def withFb (fb : Framebuffer) (s : State) : State := { s with fb := fb }

/-- The rows of the screen as numbers, column 0 the most significant of 64 bits. -/
def rows (t : State) : List Nat := t.fb.toList.map fun row => row.toList.foldl (fun n b => 2 * n + b.toNat) 0

/-- Rows with every pixel off. -/
def blank (n : Nat) : List Nat := List.replicate n 0

/-! ### Well-formedness -/

/-- The ill-formed term: `8xy0` on a machine that has no such row (42_alu.md R90); every other row is there. -/
theorem test_wellFormed_refuses_absent_row : Instr.wellFormed Config.defaultParams (.ldReg 1 2) = false := by decide

theorem test_wellFormed_accepts_present_row :
    Instr.wellFormed { Config.defaultParams with ldVxVyPresent := true } (.ldReg 1 2) = true ∧
    Instr.wellFormed Config.defaultParams (.orReg 1 2) = true := by decide

/-! ### Decoding: one word per constructor, bit by bit from R54 (digits 15-12, 11-8, 7-4, 3-0) -/

theorem test_decode_control :
    decodeWord 0b0000000011101110#16 = some .ret ∧
    decodeWord 0b0001001000110100#16 = some (.jp 0x234#12) ∧
    decodeWord 0b0010001000010000#16 = some (.call 0x210#12) ∧
    decodeWord 0b0011001100101010#16 = some (.seImm 3 0x2A#8) ∧
    decodeWord 0b0100001100101011#16 = some (.sneImm 3 0x2B#8) ∧
    decodeWord 0b0101000100100000#16 = some (.seReg 1 2) ∧
    decodeWord 0b1001000100100000#16 = some (.sneReg 1 2) ∧
    decodeWord 0b1011000100100011#16 = some (.jpV0 0x123#12) := by decide

theorem test_decode_alu :
    decodeWord 0b0110000111111111#16 = some (.ldImm 1 0xFF#8) ∧
    decodeWord 0b0111000100000010#16 = some (.addImm 1 2#8) ∧
    decodeWord 0b1000000100100000#16 = some (.ldReg 1 2) ∧
    decodeWord 0b1000000100100001#16 = some (.orReg 1 2) ∧
    decodeWord 0b1000000100100010#16 = some (.andReg 1 2) ∧
    decodeWord 0b1000000100100011#16 = some (.xorReg 1 2) ∧
    decodeWord 0b1000101000000100#16 = some (.addReg 0xA 0) ∧
    decodeWord 0b1000000111110101#16 = some (.subReg 1 0xF) ∧
    decodeWord 0b1000001101000110#16 = some (.shr 3 4) ∧
    decodeWord 0b1000111100010111#16 = some (.subnReg 0xF 1) ∧
    decodeWord 0b1000001100001110#16 = some (.shl 3 0) ∧
    decodeWord 0b1100001100001111#16 = some (.rnd 3 0x0F#8) := by decide

theorem test_decode_index :
    decodeWord 0b1010001100000000#16 = some (.ldI 0x300#12) ∧
    decodeWord 0b1111001000011110#16 = some (.addIVx 2) ∧
    decodeWord 0b1111010000101001#16 = some (.ldFVx 4) ∧
    decodeWord 0b1111010100110011#16 = some (.ldBVx 5) ∧
    decodeWord 0b1111001001010101#16 = some (.ldMemVx 2) ∧
    decodeWord 0b1111111101100101#16 = some (.ldVxMem 0xF) := by decide

theorem test_decode_display_input :
    decodeWord 0b0000000011100000#16 = some .cls ∧
    decodeWord 0b1101000100100101#16 = some (.drw 1 2 5) ∧
    decodeWord 0b1110000110011110#16 = some (.skp 1) ∧
    decodeWord 0b1110000110100001#16 = some (.sknp 1) ∧
    decodeWord 0b1111011000000111#16 = some (.ldVxDt 6) ∧
    decodeWord 0b1111010100001010#16 = some (.ldVxK 5) ∧
    decodeWord 0b1111000000010101#16 = some (.ldDtVx 0) ∧
    decodeWord 0b1111000000011000#16 = some (.ldStVx 0) := by decide

/-- R55: a neighbour of each row that matches none. -/
theorem test_decode_unmatched :
    [0x0000#16, 0x00E1#16, 0x01E0#16, 0x0123#16, 0x5121#16, 0x8128#16, 0x812F#16, 0x9121#16, 0xE19F#16, 0xE1A0#16, 0xF100#16,
      0xF156#16, 0xFFFF#16].all (fun w => (decodeWord w).isNone) = true := by decide

theorem test_decode_bytes :
    decode [0x61#8, 0xFF#8, 0xAB#8] = .ok (.ldImm 1 0xFF#8, [0xAB#8]) ∧ decode [0x61#8] = .error .truncated ∧
    decode [0x51#8, 0x21#8] = .error (.unmatched 0x5121#16) ∧
    decodeTableWord 16 0xF265 = some (.ldVxMem 2) ∧ decodeTableWord 16 0x5121 = none := by decide

/-! ### The step -/

/-- F1: the byte at PC is the high byte. -/
theorem test_fetch_big_endian : gives (step (at0 0x1234)) (fun t => t.pc == 0x234#16) = true := by decide

/-- F3, F4. -/
theorem test_fetch_past_memory :
    gives (step { State.reset with pc := 0x1000#16 }) (fun t => failed t (.memoryBounds 0x1000) 0x1000#16 none) = true ∧
    gives (step { State.reset with pc := 0xFFF#16 }) (fun t => failed t (.memoryBounds 0x1000) 0xFFF#16 none) = true := by
  decide

/-- F5 to F8. -/
theorem test_unmatched_policies :
    step (at0 0x5121) = .next (at0 0x5121) ∧ step State.reset = .next State.reset ∧
    gives (step (under (at0 0x5121) fun p => { p with unmatchedPolicy := .advance })) (fun t => t.pc == 0x202#16) = true ∧
    gives (step (under (at0 0x5121) fun p => { p with unmatchedPolicy := .fault }))
      (fun t => failed t .illegalOpcode 0x200#16 (some 0x5121#16) && t.pc == 0x200#16) = true := by
  refine ⟨rfl, rfl, ?_, ?_⟩ <;> decide

/-- S4 and K4: the wait, a poll that finds nothing, the resume that runs the next word. -/
theorem test_wait_for_key :
    gives (step (at0 0xF50A)) (fun t => t.pc == 0x202#16 && t.mode == .awaitingKey 5 &&
      gives (step t) (fun u => u == t) &&
      gives (step (t.setKey 0xA true)) (fun u => u.v 5 == 0x0A#8 && u.mode == .running && u.pc == 0x202#16)) = true := by
  decide

theorem test_wait_takes_lowest_key :
    gives (step { ((at0 0x6001).setKey 3 true).setKey 7 true with mode := .awaitingKey 2 })
      (fun t => t.v 2 == 3#8 && t.v 0 == 1#8 && t.mode == .running && t.pc == 0x202#16) = true := by decide

/-- F12, K7, K8: the tick comes first, and only on a machine that is not halted. -/
theorem test_frame_ticks_first :
    gives (perform .frame { (at0 0x00EE) with dt := 5#8 })
      (fun t => t.dt == 4#8 && failed t .stackUnderflow 0x200#16 (some 0x00EE#16) &&
        gives (perform .frame t) (fun u => u == t)) = true ∧
    gives (perform .frame (at0 0x1200)) (fun t => t.dt == 0#8) = true := by decide

/-- R2, R3, R4 and K12. -/
theorem test_host_calls :
    gives (perform (.load [0x12#8, 0x00#8]) { (at0 0xAABB).setV 1 9#8 with pc := 0x20A#16 })
      (fun t => t.byteAt 0x200 == 0x12#8 && t.byteAt 0x201 == 0#8 && t.v 1 == 9#8 && t.pc == 0x20A#16) = true ∧
    gives (perform (.load [0x11#8]) (at0 0xAABB)) (fun t => t.byteAt 0x200 == 0x11#8 && t.byteAt 0x201 == 0xBB#8) = true ∧
    perform (.press 16) State.reset = .refused (.keyOutOfRange 16) := by
  refine ⟨?_, ?_, rfl⟩ <;> decide

/-- R1, and the font at 0 to 79 (10_state.md R20). -/
theorem test_reset_clears :
    gives (perform .reset (((at0 0x1234).setKey 3 true).raise none .stackOverflow)) (fun t => t == State.reset) = true ∧
    State.reset.byteAt 0 = 0xF0#8 ∧ State.reset.byteAt 79 = 0x80#8 ∧ State.reset.byteAt 80 = 0#8 := by decide

/-! ### Control flow -/

/-- CF2, CF3. -/
theorem test_ret :
    gives (step { (at0 0x00EE) with sp := 1, stack := State.reset.stack.set 0 0x206#16 })
      (fun t => t.sp == 0 && t.pc == 0x206#16 && t.stack.get 0 == 0x206#16) = true ∧
    gives (step (at0 0x00EE)) (fun t => failed t .stackUnderflow 0x200#16 (some 0x00EE#16) && t.sp == 0) = true := by decide

/-- CF1, CF4. -/
theorem test_call :
    gives (step (at0 0x2210)) (fun t => t.stack.get 0 == 0x202#16 && t.sp == 1 && t.pc == 0x210#16) = true ∧
    gives (step { (at0 0x2200) with sp := 16 })
      (fun t => failed t .stackOverflow 0x200#16 (some 0x2200#16) && t.sp == 16 && t.pc == 0x200#16) = true := by decide

/-- CF8: an odd target. -/
theorem test_jp : gives (step (at0 0x1201)) (fun t => t.pc == 0x201#16) = true := by decide

/-- S2, CF6, CF7. -/
theorem test_jpV0 :
    gives (step ((at0 0xB123).setV 0 5#8)) (fun t => t.pc == 0x128#16) = true ∧
    gives (step ((at0 0xBFFF).setV 0 1#8)) (fun t => t.pc == 0x1000#16) = true ∧
    gives (step ((at0 0xBFFF).setV 0 0xFF#8)) (fun t => t.pc == 0x10FE#16) = true := by decide

/-- S12, CF9, CF13. -/
theorem test_skip_immediate :
    gives (step ((at0 0x332A).setV 3 0x2A#8)) (fun t => t.pc == 0x204#16) = true ∧
    gives (step ((at0 0x332B).setV 3 0x2A#8)) (fun t => t.pc == 0x202#16) = true ∧
    gives (step ((at0 0x432A).setV 3 0x2A#8)) (fun t => t.pc == 0x202#16) = true ∧
    gives (step ((at0 0x432B).setV 3 0x2A#8)) (fun t => t.pc == 0x204#16) = true ∧
    gives (step ((at0 0x3F01).setV 15 1#8)) (fun t => t.pc == 0x204#16) = true := by decide

/-- CF10, CF11. -/
theorem test_skip_register :
    gives (step (((at0 0x5120).setV 1 7#8).setV 2 7#8)) (fun t => t.pc == 0x204#16) = true ∧
    gives (step (((at0 0x9120).setV 1 7#8).setV 2 7#8)) (fun t => t.pc == 0x202#16) = true ∧
    gives (step (((at0 0x5120).setV 1 7#8).setV 2 8#8)) (fun t => t.pc == 0x202#16) = true ∧
    gives (step (((at0 0x9120).setV 1 7#8).setV 2 8#8)) (fun t => t.pc == 0x204#16) = true := by decide

/-! ### ALU -/

/-- A machine whose flag is written last. -/
def flagLast (s : State) : State := under s fun p => { p with aluVfOrder := .flagLast }

/-- A1, A2. -/
theorem test_immediates :
    gives (step ((at0 0x61FF).setV 1 0x2A#8)) (fun t => t.v 1 == 0xFF#8) = true ∧
    gives (step (((at0 0x7102).setV 1 0xFF#8).setV 15 0x55#8)) (fun t => t.v 1 == 1#8 && t.v 15 == 0x55#8) = true := by
  decide

/-- F10, F11. -/
theorem test_copy :
    step ((at0 0x8120).setV 2 9#8) = .next ((at0 0x8120).setV 2 9#8) ∧
    gives (step (under ((at0 0x8120).setV 2 9#8) fun p => { p with ldVxVyPresent := true }))
      (fun t => t.v 1 == 9#8 && t.pc == 0x202#16) = true := by
  refine ⟨rfl, ?_⟩; decide

/-- A3. -/
theorem test_bitwise :
    gives (step ((((at0 0x8121).setV 1 0x0F#8).setV 2 0xF0#8).setV 15 7#8)) (fun t => t.v 1 == 0xFF#8 && t.v 15 == 7#8) = true ∧
    gives (step ((((at0 0x8122).setV 1 0x0F#8).setV 2 0xF0#8).setV 15 7#8)) (fun t => t.v 1 == 0#8 && t.v 15 == 7#8) = true ∧
    gives (step ((((at0 0x8123).setV 1 0x0F#8).setV 2 0xF0#8).setV 15 7#8)) (fun t => t.v 1 == 0xFF#8 && t.v 15 == 7#8) = true ∧
    gives (step ((at0 0x8113).setV 1 0x3C#8)) (fun t => t.v 1 == 0#8) = true := by decide

/-- A5, A7, A8. -/
theorem test_add_register :
    gives (step (((at0 0x8A04).setV 10 0xFF#8).setV 0 8#8)) (fun t => t.v 10 == 7#8 && t.v 15 == 1#8) = true ∧
    gives (step (((at0 0x8F14).setV 15 0xC8#8).setV 1 0x64#8)) (fun t => t.v 15 == 1#8) = true ∧
    gives (step (((at0 0x81F4).setV 1 0x10#8).setV 15 0xF5#8)) (fun t => t.v 1 == 5#8 && t.v 15 == 1#8) = true := by decide

/-- S9. -/
theorem test_sub_saturates :
    gives (step (((at0 0x8125).setV 1 10#8).setV 2 3#8)) (fun t => t.v 1 == 7#8 && t.v 15 == 1#8) = true ∧
    gives (step (((at0 0x8125).setV 1 3#8).setV 2 10#8)) (fun t => t.v 1 == 0#8 && t.v 15 == 0#8) = true ∧
    gives (step (((at0 0x8125).setV 1 7#8).setV 2 7#8)) (fun t => t.v 1 == 0#8 && t.v 15 == 0#8) = true := by decide

/-- A9, A10, A11 under both orders. -/
theorem test_sub_flag_register :
    gives (step (((at0 0x8F15).setV 15 5#8).setV 1 3#8)) (fun t => t.v 15 == 0#8) = true ∧
    gives (step (flagLast (((at0 0x8F15).setV 15 5#8).setV 1 3#8))) (fun t => t.v 15 == 1#8) = true ∧
    gives (step (((at0 0x81F5).setV 1 5#8).setV 15 3#8)) (fun t => t.v 1 == 4#8 && t.v 15 == 1#8) = true ∧
    gives (step (flagLast (((at0 0x81F5).setV 1 5#8).setV 15 3#8))) (fun t => t.v 1 == 2#8 && t.v 15 == 1#8) = true ∧
    gives (step ((at0 0x8FF5).setV 15 7#8)) (fun t => t.v 15 == 0#8) = true := by decide

/-- S10 (a), A12, A18. -/
theorem test_shr :
    gives (step ((at0 0x8306).setV 3 5#8)) (fun t => t.v 3 == 2#8 && t.v 15 == 1#8) = true ∧
    gives (step (((at0 0x8346).setV 3 1#8).setV 4 0xFF#8)) (fun t => t.v 3 == 0#8 && t.v 15 == 1#8 && t.v 4 == 0xFF#8) = true ∧
    gives (step ((at0 0x8F06).setV 15 3#8)) (fun t => t.v 15 == 0#8) = true ∧
    gives (step (flagLast ((at0 0x8F06).setV 15 3#8))) (fun t => t.v 15 == 1#8) = true := by decide

/-- S10 (b), A13, A17. -/
theorem test_shl :
    gives (step ((at0 0x830E).setV 3 0x81#8)) (fun t => t.v 3 == 2#8 && t.v 15 == 1#8) = true ∧
    gives (step ((at0 0x830E).setV 3 0xFF#8)) (fun t => t.v 3 == 0xFE#8 && t.v 15 == 1#8) = true ∧
    gives (step ((at0 0x8F0E).setV 15 0x81#8)) (fun t => t.v 15 == 2#8) = true ∧
    gives (step (flagLast ((at0 0x8F0E).setV 15 0x81#8))) (fun t => t.v 15 == 1#8) = true := by decide

/-- S9 (c), A16, A14, A15. -/
theorem test_subn :
    gives (step (((at0 0x8127).setV 1 3#8).setV 2 10#8)) (fun t => t.v 1 == 7#8 && t.v 15 == 1#8) = true ∧
    gives (step (((at0 0x8127).setV 1 9#8).setV 2 5#8)) (fun t => t.v 1 == 0#8 && t.v 15 == 0#8) = true ∧
    gives (step (((at0 0x8F17).setV 15 5#8).setV 1 9#8)) (fun t => t.v 15 == 8#8) = true ∧
    gives (step (flagLast (((at0 0x8F17).setV 15 5#8).setV 1 9#8))) (fun t => t.v 15 == 1#8) = true ∧
    gives (step (((at0 0x81F7).setV 1 5#8).setV 15 9#8)) (fun t => t.v 1 == 0#8 && t.v 15 == 1#8) = true ∧
    gives (step (flagLast (((at0 0x81F7).setV 1 5#8).setV 15 9#8))) (fun t => t.v 1 == 4#8 && t.v 15 == 1#8) = true := by
  decide

/-- A19, A21. -/
theorem test_rnd :
    gives (step { (at0 0xC30F) with rand := some ⟨true, 0xB7#8⟩ }) (fun t => t.v 3 == 7#8 && t.pc == 0x202#16) = true ∧
    gives (step { (at0 0xC3FF).setV 3 0x11#8 with rand := some ⟨false, 0#8⟩ })
      (fun t => failed t .randomSourceFailure 0x200#16 (some 0xC3FF#16) && t.v 3 == 0x11#8 && t.pc == 0x200#16) = true := by
  decide

/-! ### Index and memory transfers -/

/-- M1, M4 to M6. -/
theorem test_index_loads :
    gives (step (at0 0xA300)) (fun t => t.i == 0x300#16) = true ∧
    gives (step ((at0 0xF429).setV 4 0x0A#8)) (fun t => t.i == 0x32#16) = true ∧
    gives (step ((at0 0xF429).setV 4 0x10#8)) (fun t => t.i == 0x50#16) = true ∧
    gives (step ((at0 0xF429).setV 4 0xFF#8)) (fun t => t.i == 0x4FB#16) = true := by decide

/-- M2, M3. -/
theorem test_index_add :
    gives (step { (at0 0xF21E).setV 2 5#8 with i := 0xFFE#16 }) (fun t => t.i == 0x1003#16 && t.v 15 == 0#8) = true ∧
    gives (step { (at0 0xF21E).setV 2 2#8 with i := 0xFFFF#16 }) (fun t => t.i == 1#16) = true ∧
    gives (step (under { (at0 0xF21E).setV 2 2#8 with i := 0xFFFF#16 } fun p => { p with indexOverflow := .fault }))
      (fun t => failed t .indexOverflow 0x200#16 (some 0xF21E#16) && t.i == 0xFFFF#16) = true := by decide

/-- S3, M9. -/
theorem test_bcd :
    gives (step { (at0 0xF533).setV 5 239#8 with i := 0x602#16 })
      (fun t => t.byteAt 0x602 == 2#8 && t.byteAt 0x603 == 3#8 && t.byteAt 0x604 == 9#8 && t.byteAt 0x605 == 0#8 &&
        t.i == 0x602#16) = true ∧
    gives (step { (at0 0xF133).setV 1 7#8 with i := 0xFFD#16 })
      (fun t => t.byteAt 0xFFD == 0#8 && t.byteAt 0xFFE == 0#8 && t.byteAt 0xFFF == 7#8 && t.fault.isNone) = true := by decide

/-- M10: the fault, with the bytes in range left free. -/
theorem test_bcd_past_memory :
    gives (step { (at0 0xF133).setV 1 7#8 with i := 0xFFE#16 })
      (fun t => failed t (.memoryBounds 0x1000) 0x200#16 (some 0xF133#16) && t.i == 0xFFE#16 && t.pc == 0x200#16) = true := by
  decide

/-- M11, M16: the font is not protected. -/
theorem test_store :
    gives (step { (((at0 0xF255).setV 0 1#8).setV 1 2#8).setV 2 3#8 with i := 0x400#16 })
      (fun t => t.byteAt 0x400 == 1#8 && t.byteAt 0x401 == 2#8 && t.byteAt 0x402 == 3#8 && t.byteAt 0x403 == 0#8 &&
        t.i == 0x400#16) = true ∧
    gives (step ((at0 0xF055).setV 0 0xAA#8)) (fun t => t.byteAt 0 == 0xAA#8 && t.byteAt 1 == 0x90#8) = true := by decide

/-- M17: a stored word is fetched by the next step. -/
theorem test_store_then_fetch :
    gives (step { ((at0 0xF155).setV 0 0x12#8) with i := 0x202#16 })
      (fun t => gives (step t) (fun u => u.pc == 0x200#16)) = true := by decide

/-- M13, M15. -/
theorem test_load :
    gives (step { (((at0 0xF265).poke 0x300 2#8).poke 0x301 3#8).poke 0x302 9#8 |>.setV 3 0x44#8 with i := 0x300#16 })
      (fun t => t.v 0 == 2#8 && t.v 1 == 3#8 && t.v 2 == 9#8 && t.v 3 == 0x44#8 && t.i == 0x300#16) = true ∧
    gives (step { (at0 0xFF65) with i := 0xFF1#16 })
      (fun t => failed t (.memoryBounds 0x1000) 0x200#16 (some 0xFF65#16)) = true := by decide

/-! ### Display -/

/-- S1, D8: two pixels lit, then none; VF stays. -/
theorem test_cls :
    gives (step { (at0 0x00E0).setV 15 7#8 with fb := togglePixel (togglePixel clearFramebuffer 3 4) 10 20 })
      (fun t => rows t == blank 32 && t.v 15 == 7#8 && t.pc == 0x202#16) = true := by decide

set_option maxRecDepth 4000 in
/-- S11 and P3: glyph 0 at (62, 30) wraps. -/
theorem test_draw_wraps :
    gives (step (((at0 0xD125).setV 1 62#8).setV 2 30#8))
      (fun t => t.v 15 == 0#8 && rows t == [0x4000000000000002, 0x4000000000000002, 0xC000000000000003] ++ blank 27 ++
          [0xC000000000000003, 0x4000000000000002]) = true := by decide

/-- D2: a pixel drawn over goes off and sets VF. -/
theorem test_draw_erases :
    gives (step (withFb (togglePixel clearFramebuffer 0 0) (withI 0x300#16 ((at0 0xD121).poke 0x300 0x80#8))))
      (fun t => rows t == blank 32 && t.v 15 == 1#8) = true := by decide

/-- D3: a column and a row that wrap. -/
theorem test_draw_corner :
    gives (step (withI 0x300#16 ((((at0 0xD121).poke 0x300 0x01#8).setV 1 70#8).setV 2 40#8)))
      (fun t => rows t == blank 8 ++ [2 ^ 50] ++ blank 23) = true := by decide

/-- D4. -/
theorem test_draw_collides :
    gives (step (withFb (togglePixel clearFramebuffer 1 1)
        (withI 0x300#16 (((at0 0xD012).poke 0x300 0xC0#8).poke 0x301 0xC0#8))))
      (fun t => rows t == [3 * 2 ^ 62, 2 ^ 63] ++ blank 30 && t.v 15 == 1#8) = true := by decide

/-- D5. -/
theorem test_draw_no_rows :
    gives (step (withI 0xFFFF#16 ((at0 0xD120).setV 15 1#8)))
      (fun t => rows t == blank 32 && t.v 15 == 0#8 && t.fault.isNone) = true := by decide

/-- D7, its first row, under both coordinate readings. -/
theorem test_draw_flag_coordinate :
    gives (step ((at0 0xDF11).setV 15 10#8)) (fun t => rows t == [15 * 2 ^ 50] ++ blank 31) = true ∧
    gives (step (under ((at0 0xDF11).setV 15 10#8) fun p => { p with drawCoordRead := .live }))
      (fun t => rows t == [15 * 2 ^ 60] ++ blank 31) = true := by decide

/-! ### Input and timers -/

/-- K1 to K3. -/
theorem test_key_skips :
    gives (step (((at0 0xE19E).setV 1 5#8).setKey 5 true)) (fun t => t.pc == 0x204#16) = true ∧
    gives (step ((at0 0xE19E).setV 1 5#8)) (fun t => t.pc == 0x202#16) = true ∧
    gives (step ((at0 0xE1A1).setV 1 5#8)) (fun t => t.pc == 0x204#16) = true ∧
    gives (step (((at0 0xE19E).setV 1 0x1A#8).setKey 0xA true)) (fun t => t.pc == 0x204#16) = true ∧
    gives (step (under ((at0 0xE19E).setV 1 0x1A#8) fun p => { p with keyIndexMode := .fault }))
      (fun t => failed t (.keyIndexRange 0x1A#8) 0x200#16 (some 0xE19E#16)) = true := by decide

/-- K6, K10, K11. -/
theorem test_timers :
    gives (step ((at0 0xF015).setV 0 60#8)) (fun t => t.dt == 60#8) = true ∧
    gives (step ((at0 0xF018).setV 0 3#8)) (fun t => t.st == 3#8) = true ∧
    gives (step { (at0 0xF607) with dt := 0x3A#8 }) (fun t => t.v 6 == 0x3A#8 && t.dt == 0x3A#8) = true := by decide

/-! ### Witnesses: the hypotheses of each statement are met, one boundary case per clause -/

/-- A machine about to execute a word, with other parameters. -/
def atUnder (w : Nat) (p : Params → Params) : State := under (at0 w) p

/-- A machine whose PC is this. -/
def withPc (a : Word) (s : State) : State := { s with pc := a }

/-- A machine whose stack holds this many entries. -/
def withSp (n : Fin 17) (s : State) : State := { s with sp := n }

/-- A machine whose random input presents this sample. -/
def withRand (d : Draw) (s : State) : State := { s with rand := some d }

theorem test_witness_EncodeInvertsDecode : decodeWord 0x8346#16 = some (.shr 3 4) := by decide

theorem test_witness_DecodeSelectsTheOnlyMatchingRow : ∃ r q : OpcodeRow,
    opcodeTable[33]? = some r ∧ opcodeTable[33]? = some q ∧ 0xFF65#16 &&& r.mask = r.value ∧ 0xFF65#16 &&& q.mask = q.value :=
  ⟨_, _, rfl, rfl, rfl, rfl⟩

/-- One word under each clause of R55, at the edge of its range. -/
theorem test_witness_UnmatchedWordsAreExactlyTheListed :
    ((0x0FFF#16).extractLsb' 12 4 = 0x0#4 ∧ fieldNnn 0x0FFF#16 ≠ 0x0E0#12 ∧ fieldNnn 0x0FFF#16 ≠ 0x0EE#12) ∧
    ((0x5121#16).extractLsb' 12 4 = 0x5#4 ∧ fieldN 0x5121#16 ≠ 0#4) ∧
    ((0x8128#16).extractLsb' 12 4 = 0x8#4 ∧
      fieldN 0x8128#16 ∈ [0x8#4, 0x9#4, 0xA#4, 0xB#4, 0xC#4, 0xD#4, 0xF#4]) ∧
    ((0x912F#16).extractLsb' 12 4 = 0x9#4 ∧ fieldN 0x912F#16 ≠ 0#4) ∧
    ((0xE19F#16).extractLsb' 12 4 = 0xE#4 ∧ fieldKk 0xE19F#16 ∉ [0x9E#8, 0xA1#8]) ∧
    ((0xFFFF#16).extractLsb' 12 4 = 0xF#4 ∧
      fieldKk 0xFFFF#16 ∉ [0x07#8, 0x0A#8, 0x15#8, 0x18#8, 0x1E#8, 0x29#8, 0x33#8, 0x55#8, 0x65#8]) := by decide

/-- The last PC a word can be fetched from. -/
theorem test_witness_StepRunsDecodedInstruction :
    let s := withPc 0xFFE#16 ((State.reset.poke 0xFFE 0x60#8).poke 0xFFF 0x07#8)
    s.fault = none ∧ s.mode = .running ∧ s.pc.toNat + 1 < 4096 ∧
      decode [s.byteAt s.pc.toNat, s.byteAt (s.pc.toNat + 1)] = .ok (.ldImm 0 7#8, []) := by decide

theorem test_witness_FetchReadsBigEndianWordOrFaults :
    let s (a : Word) := withPc a State.reset
    ((s 0x1000#16).fault = none ∧ (s 0x1000#16).mode = .running ∧ 4096 ≤ (s 0x1000#16).pc.toNat) ∧
    (s 0xFFF#16).pc.toNat = 4095 ∧ (s 0xFFE#16).pc.toNat < 4095 := by decide

theorem test_witness_UnmatchedWordFollowsPolicy :
    let s (q : UnmatchedPolicy) := atUnder 0x5121 fun p => { p with unmatchedPolicy := q }
    ∀ q ∈ [UnmatchedPolicy.stall, .advance, .fault], (s q).fault = none ∧ (s q).mode = .running ∧
      (s q).fetch.toOption = some 0x5121#16 ∧ decodeWord 0x5121#16 = none ∧ (s q).params.unmatchedPolicy = q := by decide

/-- No key held, the highest key alone, and the lowest key with others. -/
theorem test_witness_WaitStepPollsThenRuns :
    let s : State := { State.reset with mode := .awaitingKey 15 }
    let u := s.setKey 15 true
    let w := (u.setKey 0 true).setKey 7 true
    s.fault = none ∧ s.mode = .awaitingKey 15 ∧ (∀ k : Nibble, s.keyDown k = false) ∧
    (u.keyDown 15 = true ∧ ∀ j : Nibble, j.toNat < (15 : Nibble).toNat → u.keyDown j = false) ∧
    w.keyDown 0 = true := by decide

theorem test_witness_HaltedMachineStaysUntilReset :
    (State.reset.raise none .stackOverflow).fault = some ⟨.stackOverflow, 0x200#16, none⟩ := by decide

/-- A machine about to run a word meets the invariant, and so does one with a full stack at the highest PC. -/
theorem test_witness_StepKeepsInvariant :
    (withPc 0x10FE#16 (withSp 16 (at0 0x6007))).Inv ∧ ∃ t, step (withPc 0x10FE#16 (withSp 16 (at0 0x6007))) = .next t :=
  ⟨⟨rfl, by decide, by decide, fun f h => by cases h⟩, _, rfl⟩

theorem test_witness_CommandsKeepInvariant :
    (at0 0x6007).Inv ∧ (∃ t, perform (.press 15) (at0 0x6007) = .next t) ∧
      ∃ t, perform (.load [0xFF#8]) (at0 0x6007) = .next t :=
  ⟨⟨rfl, by decide, by decide, fun f h => by cases h⟩, ⟨_, rfl⟩, ⟨_, rfl⟩⟩

theorem test_witness_ResetRestoresEveryField :
    ∃ t, perform .reset ((at0 0x1234).setV 3 9#8) = .next t := ⟨_, rfl⟩

/-- The last byte that is kept, and the first that is dropped. -/
theorem test_witness_LoadWritesProgramBytesOnly :
    (at0 0x6007).MemWf ∧ 512 + 3583 < 4096 ∧ ¬ 512 + 3584 < 4096 ∧ (List.replicate 3 0xFF#8)[2]? = some 0xFF#8 :=
  ⟨rfl, by decide, by decide, by decide⟩

theorem test_witness_KeyCallsActOnTheirKeys :
    State.reset.firstPressed = none ∧ ((State.reset.setKey 15 true).setKey 0 true).firstPressed = some 0 ∧
    (0 : Nibble) ≠ 15 := by decide

theorem test_witness_HostIndexOutOfRangeRefused : 16 ≤ 16 ∧ 15 < 16 := by decide

theorem test_witness_FrameTicksThenRunsEightSteps : (at0 0x6007).fault = none := by decide

theorem test_witness_MemoryPrimitivesCheckAndStore : (at0 0x6007).MemWf ∧ 4096 ≤ 4096 ∧ 4095 < 4096 ∧ 0 ≠ 4095 :=
  ⟨rfl, by decide, by decide, by decide⟩

/-- The last PC whose next word lies in memory. -/
theorem test_witness_StoredWordIsFetchedNext :
    let s := withI 0xFFE#16 (withPc 0xFFC#16 State.reset)
    s.MemWf ∧ 1 ≤ (1 : Nibble).toNat ∧ s.i = s.pc + 2 ∧ s.pc.toNat < 4094 ∧ s.i.toNat + (1 : Nibble).toNat < 4096 :=
  ⟨rfl, by decide, by decide, by decide, by decide⟩

/-- Each field does change under one of its writers. -/
theorem test_witness_EachFieldHasItsWriters :
    gives (exec (.ldDtVx 1) (State.reset.setV 1 9#8)) (fun t => t.dt != 0#8) = true ∧
    gives (exec (.ldStVx 1) (State.reset.setV 1 9#8)) (fun t => t.st != 0#8) = true ∧
    gives (exec (.ldI 0xFFF#12) State.reset) (fun t => t.i != 0#16) = true ∧
    gives (exec (.call 0xFFF#12) State.reset) (fun t => t.stack != State.reset.stack && t.sp != 0) = true ∧
    gives (exec (.ldVxK 15) State.reset) (fun t => t.mode != .running) = true ∧
    gives (exec (.ldMemVx 0) (withI 0xFFF#16 (State.reset.setV 0 9#8))) (fun t => t.byteAt 0xFFF != 0#8) = true := by decide

theorem test_witness_EachFieldHasItsWriters_screen :
    gives (exec (.drw 0 0 1) State.reset) (fun t => pixel t.fb 0 0 != pixel State.reset.fb 0 0) = true := by decide

/-- PC moves, the fault record is written, and a draw is counted. -/
theorem test_witness_EachFieldHasItsWriters_rest :
    gives (exec (.jp 0xFFF#12) State.reset) (fun t => t.pc != State.reset.pc) = true ∧
    gives (exec .ret State.reset) (fun t => t.fault != State.reset.fault) = true ∧
    gives (exec (.rnd 1 0xFF#8) (withRand ⟨true, 0#8⟩ State.reset)) (fun t => t.draws != 0 && t.rand == none) = true := by
  decide

theorem test_witness_RegistersChangeOnlyAsDestinations :
    gives (exec (.ldImm 15 9#8) State.reset) (fun t => t.v 15 != State.reset.v 15) = true := by decide

theorem test_witness_FaultNamesItsInstruction :
    State.reset.fault = none ∧ gives (exec .ret State.reset) (fun t => t.fault.isSome) = true := by decide

/-- An instruction that always continues, the conditional row where it is present, and a skip whose condition fails. -/
theorem test_witness_ContinueAdvancesOneWord :
    (AlwaysContinues State.reset.params (.ldImm 1 2#8) ∧ State.reset.fault = none ∧
      gives (exec (.ldImm 1 2#8) State.reset) (fun t => t.fault.isNone) = true) ∧
    AlwaysContinues (atUnder 0x8120 fun p => { p with ldVxVyPresent := true }).params (.ldReg 1 2) ∧
    State.reset.skipCondition (.seImm 1 0xFF#8) = some false ∧ State.reset.skipCondition (.skp 1) = some false :=
  ⟨⟨trivial, by decide, by decide⟩, rfl, by decide, by decide⟩

theorem test_witness_SkipNextAdvancesTwoWords :
    State.reset.skipCondition (.seImm 1 0#8) = some true ∧
    ((State.reset.setV 1 0xFF#8).setKey 15 true).skipCondition (.skp 1) = some true := by decide

/-- The last entry of the stack, and a full stack. -/
theorem test_witness_CallPushesReturnAddress :
    (withSp 15 State.reset).sp.val < 16 ∧ (15 : Fin 16).val = (withSp 15 State.reset).sp.val ∧
    (withSp 16 State.reset).sp.val = 16 := by decide

/-- A full stack, the first entry, and an empty stack. -/
theorem test_witness_ReturnPopsIntoPc :
    0 < (withSp 16 State.reset).sp.val ∧ (15 : Fin 16).val = (withSp 16 State.reset).sp.val - 1 ∧
    0 < (withSp 1 State.reset).sp.val ∧ State.reset.sp.val = 0 := by decide

theorem test_witness_CallThenReturnRestores :
    (withSp 15 State.reset).sp.val < 16 ∧ (14 : Fin 16).val ≠ (withSp 15 State.reset).sp.val ∧
    ∃ t, exec (.call 0xFFF#12) (withSp 15 State.reset) = .next t :=
  ⟨by decide, by decide, _, rfl⟩

theorem test_witness_CopyWhereTheRowIsPresent :
    (atUnder 0x8120 fun p => { p with ldVxVyPresent := true }).params.ldVxVyPresent = true ∧
    ∀ q ∈ [UnmatchedPolicy.stall, .advance, .fault],
      let s := atUnder 0x8120 fun p => { p with unmatchedPolicy := q }
      s.params.ldVxVyPresent = false ∧ s.params.unmatchedPolicy = q := by decide

theorem test_witness_AddRegistersWritesCarry : (14 : Nibble) ≠ 15 ∧ (0 : Nibble) ≠ 14 ∧ (0 : Nibble) ≠ 15 := by decide

theorem test_witness_ShiftRightMovesLowBitToFlag :
    (14 : Nibble) ≠ 15 ∧ (0 : Nibble) ≠ 14 ∧ State.reset.params.aluVfOrder = .sequential := by decide

theorem test_witness_ShiftLeftMovesHighBitToFlag :
    (14 : Nibble) ≠ 15 ∧ (0 : Nibble) ≠ 14 ∧ State.reset.params.aluVfOrder = .sequential := by decide

/-- Equal operands, where the flag is 0, and the flag register as each operand under both orders. -/
theorem test_witness_SubtractSaturatesWithFlag :
    let s := (State.reset.setV 1 7#8).setV 15 7#8
    7 = (s.v 1).toNat ∧ 7 = (s.v 15).toNat ∧ (0 : Nat) = (if 7 < 7 then 1 else 0) ∧ (1 : Nibble) ≠ 15 ∧
    s.params.aluVfOrder = .sequential ∧ (flagLast s).params.aluVfOrder = .flagLast := by decide

theorem test_witness_ReverseSubtractSaturatesWithFlag :
    let s := (State.reset.setV 1 7#8).setV 15 8#8
    7 = (s.v 1).toNat ∧ 8 = (s.v 15).toNat ∧ (1 : Nat) = (if 7 < 8 then 1 else 0) ∧ (1 : Nibble) ≠ 15 ∧
    s.params.aluVfOrder = .sequential ∧ (flagLast s).params.aluVfOrder = .flagLast := by decide

theorem test_witness_RandomByteIsMaskedOrFails :
    (withRand ⟨true, 0xFF#8⟩ State.reset).sample.available = true ∧
    (withRand ⟨false, 0xFF#8⟩ State.reset).sample.available = false := by decide

/-- The sum 0xFFFF and the sum 0x10000. -/
theorem test_witness_IndexAddWrapsOrFaults :
    let s := withI 0xFFFF#16 State.reset
    let u := withI 0xFFFF#16 (State.reset.setV 1 1#8)
    s.i.toNat + (s.v 1).toNat ≤ 0xFFFF ∧ u.params.indexOverflow = .wrap ∧ 0xFFFF < u.i.toNat + (u.v 1).toNat ∧
    (under u fun p => { p with indexOverflow := .fault }).params.indexOverflow = .fault := by decide

/-- The last I that fits three bytes, the first that does not, and one past memory. -/
theorem test_witness_BcdStoresThreeDigits :
    (withI 0xFFD#16 State.reset).MemWf ∧ (withI 0xFFD#16 State.reset).i.toNat + 2 < 4096 ∧
    4096 ≤ (withI 0xFFE#16 State.reset).i.toNat + 2 ∧ 4096 ≤ (withI 0x1000#16 State.reset).i.toNat + 2 :=
  ⟨rfl, by decide, by decide, by decide⟩

/-- Sixteen registers at the last I they fit, and one further. -/
theorem test_witness_StoreRegistersToMemory :
    (withI 0xFF0#16 State.reset).MemWf ∧ (withI 0xFF0#16 State.reset).i.toNat + (15 : Nibble).toNat < 4096 ∧
    4096 ≤ (withI 0xFF1#16 State.reset).i.toNat + (15 : Nibble).toNat :=
  ⟨rfl, by decide, by decide⟩

theorem test_witness_LoadRegistersFromMemory :
    (withI 0xFF0#16 State.reset).i.toNat + (15 : Nibble).toNat < 4096 ∧
    4096 ≤ (withI 0xFF1#16 State.reset).i.toNat + (15 : Nibble).toNat := by decide

/-- No rows at any I, and fifteen rows that end with memory. -/
theorem test_witness_DrawFollowsThePixelLoop :
    (0 : Nibble) = 0 ∧ (withI 0xFF1#16 State.reset).i.toNat + (15 : Nibble).toNat ≤ 4096 := by decide

/-- A pixel covered and lit, one covered and off, and one not covered, for registers other than VF and under `latched`. -/
theorem test_witness_DrawIsXorWithCollisionFlag :
    let s := withFb (togglePixel clearFramebuffer 0 0) State.reset
    s.params.drawCoordRead = .latched ∧ (1 : Nibble) ≠ 15 ∧ s.i.toNat + (1 : Nibble).toNat ≤ 4096 ∧
    pixel s.fb 0 0 = true ∧ s.Covers (s.v 1) (s.v 2) 1 0 0 ∧
    pixel s.fb 3 0 = false ∧ s.Covers (s.v 1) (s.v 2) 1 3 0 ∧ ¬ s.Covers (s.v 1) (s.v 2) 1 0 1 :=
  ⟨by decide, by decide, by decide, by decide, ⟨0, 0, by decide, by decide, rfl, rfl, rfl⟩, by decide,
    ⟨0, 3, by decide, by decide, rfl, rfl, rfl⟩, fun ⟨r, _, hr, _, _, _, hy⟩ => by
      obtain rfl : r = 0 := by omega
      exact absurd hy (by decide)⟩

theorem test_witness_DrawingTwiceRestoresTheScreen :
    (1 : Nibble) ≠ 15 ∧ State.reset.i.toNat + (1 : Nibble).toNat ≤ 4096 ∧
    ∃ t u, exec (.drw 1 2 1) State.reset = .next t ∧ exec (.drw 1 2 1) t = .next u :=
  ⟨by decide, by decide, _, _, rfl, rfl⟩

/-- With VF as the column, under `latched`, where the first draw meets no lit pixel and so leaves VF at 0. -/
theorem test_witness_DrawingTwiceRestoresTheScreen_flag :
    State.reset.params.drawCoordRead = .latched ∧
    gives (exec (.drw 15 1 1) State.reset) (fun t => t.v 15 == State.reset.v 15 && t.v 1 == State.reset.v 1 &&
      gives (exec (.drw 15 1 1) t) fun _ => true) = true := by decide

theorem test_witness_DrawFaultsPastTheEndOfMemory :
    (1 : Nibble) ≠ 0 ∧ 4096 < (withI 0x1000#16 State.reset).i.toNat + (1 : Nibble).toNat ∧
    4096 < (withI 0xFFF#16 State.reset).i.toNat + (2 : Nibble).toNat := by decide

/-- A value of 15 under both modes, and 16 under each. -/
theorem test_witness_KeySkipsTestTheNamedKey :
    let s := State.reset.setV 1 15#8
    let u := State.reset.setV 1 16#8
    let f (m : State) := under m fun p => { p with keyIndexMode := .fault }
    ((f s).v 1).toNat ≤ 15 ∧ (15 : Nibble).toNat = (s.v 1).toNat % 16 ∧
    u.params.keyIndexMode = .lowNibble ∧ (0 : Nibble).toNat = (u.v 1).toNat % 16 ∧
    (f u).params.keyIndexMode = .fault ∧ 15 < ((f u).v 1).toNat := by decide

theorem test_witness_WaitForKeyIsEnteredByItsInstruction :
    State.reset.mode = .running ∧ gives (exec (.ldVxK 15) State.reset) (fun t => t.mode == .awaitingKey 15) = true := by
  decide

theorem test_witness_StepsDoNotTickTheTimers :
    gives (step ((at0 0xF015).setV 0 60#8)) (fun t => t.dt != 0#8) = true ∧
    gives (step ((at0 0xF018).setV 0 60#8)) (fun t => t.st != 0#8) = true := by decide

/-! ### Histories of host calls -/

/-- S4's calls as one history: a program is loaded, a step waits for a key, a key is pressed, a step ends the wait. -/
theorem test_history_load_and_key :
    gives (runFromConstruct Config.defaultParams [.load [0xF5#8, 0x0A#8], .step, .press 0xA, .step])
      (fun t => t.v 5 == 0x0A#8 && t.mode == .running && t.pc == 0x202#16) = true := by decide

/-- K5: a press and a release between two steps are not seen; K12 within a history. -/
theorem test_history_keys_by_level :
    gives (runHistory [.press 4, .release 4, .step] { State.reset with mode := .awaitingKey 2 })
      (fun t => t == { State.reset with mode := .awaitingKey 2 }) = true ∧
    runHistory [.press 15, .press 16, .step] State.reset = .refused (.keyOutOfRange 16) := by
  refine ⟨?_, rfl⟩; decide

/-- A history of every call, the highest key among them, and a call with the first key that is none. -/
theorem test_witness_EveryInterleavingIsALegalHistory :
    (∀ c ∈ ([.reset, .load [0xFF#8], .press 15, .frame, .step, .release 15, .releaseAll] : History), c.legal = true) ∧
    Command.legal (.press 16) = false ∧ Command.legal (.release 16) = false := by decide

theorem test_witness_HistoriesKeepInvariant :
    (at0 0x6007).Inv ∧ (∃ t, runHistory [.press 15, .step, .release 15] (at0 0x6007) = .next t) ∧
      ∃ t, runFromConstruct Config.defaultParams [.press 15, .load [0xFF#8]] = .next t :=
  ⟨⟨rfl, by decide, by decide, fun f h => by cases h⟩, ⟨_, rfl⟩, ⟨_, rfl⟩⟩

theorem test_witness_StepsOfTheCoreAreAHistory : (at0 0x6007).fault = none := by decide

/-- A load and a key call; a press and a release that leave the keys as they were; a key that is up. -/
theorem test_witness_CallsBetweenStepsTouchMemoryAndKeysOnly :
    (∀ c ∈ ([.load [0xFF#8], .press 15, .releaseAll] : History), c ≠ .step ∧ c ≠ .frame ∧ c ≠ .reset) ∧
    (∃ t, runHistory [.load [0xFF#8], .press 15, .releaseAll] State.reset = .next t) ∧
    gives (runHistory [.press 15, .release 15] State.reset) (fun t => decide (∀ k : Nibble, t.keyDown k = false)) = true ∧
    State.reset.keyDown 15 = false :=
  ⟨by decide, ⟨_, rfl⟩, by decide, by decide⟩

end Sys2Proof.Tests
end

/-! ## The obligations of memory (20_memory.md) -/

namespace Sys2Proof.Machine

/-! ### The access primitives, case by case (20_memory.md R36) -/

theorem State.memRead_inRange (s : State) {a : Nat} (h : a < memSize) : s.memRead a = .ok (s.byteAt a) :=
  if_pos h

theorem State.memRead_outOfRange (s : State) {a : Nat} (h : memSize ≤ a) : s.memRead a = .error (.memoryBounds a) :=
  if_neg (Nat.not_lt.2 h)

theorem State.memWrite_inRange (s : State) {a : Nat} (b : Byte) (h : a < memSize) : s.memWrite a b = .ok (s.poke a b) :=
  if_pos h

theorem State.memWrite_outOfRange (s : State) {a : Nat} (b : Byte) (h : memSize ≤ a) :
    s.memWrite a b = .error (.memoryBounds a) :=
  if_neg (Nat.not_lt.2 h)

/-! ### Changes to memory only -/

/-- A state that differs in its memory cells alone agrees on every field but memory. -/
theorem State.sameBut_of_eq_setMem {s t : State} (h : t = { s with mem := t.mem }) : s.SameBut t [.m] := by
  rw [h]
  refine ⟨rfl, fun f hf => ?_⟩
  cases f with
  | m => exact absurd (List.mem_singleton_self _) hf
  | v => exact fun _ => rfl
  | free => exact ⟨rfl, rfl⟩
  | i | pc | dt | st | stack | sp | fb | keys | mode | fault => rfl

theorem State.sameBut_poke (s : State) (a : Nat) (b : Byte) : s.SameBut (s.poke a b) [.m] :=
  State.sameBut_of_eq_setMem rfl

/-! ### The obligations -/

/-- Settles O21: out of range both primitives fault at the address itself; in range the write is `State.poke`, whose laws
give the byte read back and the frame. -/
theorem memoryPrimitivesCheckAndStore : Obligations.MemoryPrimitivesCheckAndStore := by
  intro s a b hwf
  refine ⟨fun hout => ⟨s.memRead_outOfRange hout, s.memWrite_outOfRange b hout⟩, fun hin => ?_⟩
  have hback : (s.poke a b).memRead a = .ok b := by
    rw [State.memRead_inRange _ hin, State.byteAt_poke_same hwf]
  exact ⟨s.memRead_inRange hin, s.poke a b, s.memWrite_inRange b hin, hback,
    fun _ hne => s.byteAt_poke_other b hne, s.sameBut_poke a b⟩

/-- Settles O16: `Load` is `State.loadFrom` at the load offset, whose law `State.loadFrom_spec` covers the image's bytes,
the dropped tail and the rest of memory. -/
theorem loadWritesProgramBytesOnly : Obligations.LoadWritesProgramBytesOnly := by
  intro s image hwf
  obtain ⟨t, hload, hmem, hrest, himage⟩ := State.loadFrom_spec image s progBase
  have hperform : perform (.load image) s = .next t := congrArg Host.Outcome.next hload
  exact ⟨t, hperform, (himage hwf).2, hrest, State.sameBut_of_eq_setMem hmem⟩

end Sys2Proof.Machine

/-! ## The obligations of fetch and execute (40_fetch_execute.md) -/

namespace Sys2Proof.Machine

/-! ### Changes to the control state only (40_fetch_execute.md R63) -/

/-- A state that differs in its PC, stack, SP and mode alone agrees on every field but those of them that changed. -/
theorem State.sameBut_setControl {s : State} {pc : Word} {stack : Vector Word 16} {sp : Fin 17} {mode : Mode}
    {changed : List Field} (hpc : .pc ∉ changed → pc = s.pc) (hstack : .stack ∉ changed → stack = s.stack)
    (hsp : .sp ∉ changed → sp = s.sp) (hmode : .mode ∉ changed → mode = s.mode) :
    s.SameBut { s with pc := pc, stack := stack, sp := sp, mode := mode } changed := by
  refine ⟨rfl, fun f hf => ?_⟩
  cases f with
  | pc => exact hpc hf
  | stack => exact hstack hf
  | sp => exact hsp hf
  | mode => exact hmode hf
  | m | v => exact fun _ => rfl
  | free => exact ⟨rfl, rfl⟩
  | i | dt | st | fb | keys | fault => rfl

theorem State.haltedBy_raise (s : State) (f : Fault) (w : Word) : s.HaltedBy (s.raise (some w) f) f w := ⟨rfl, rfl⟩

/-! ### The fetch (40_fetch_execute.md R61) -/

/-- The big-endian word of two bytes: the first in the high half, the second in the low one (20_memory.md R37). -/
theorem wordOfBytes_eq_shift_or (hi lo : Byte) :
    wordOfBytes hi lo = (hi.setWidth 16 <<< 8) ||| lo.setWidth 16 := by
  rw [wordOfBytes, BitVec.append_def, BitVec.shiftLeftZeroExtend_eq, BitVec.setWidth'_eq]

/-- A Running step whose fetch faults records the fault with no opcode, and changes nothing else. -/
theorem step_fetch_error {s : State} {f : Fault} (hfault : s.fault = none) (hmode : s.mode = .running)
    (hfetch : s.fetch = .error f) :
    ∃ t, step s = .next t ∧ t.fault = some ⟨f, s.pc, none⟩ ∧ s.SameBut t [.fault] :=
  ⟨s.raise none f, (step_running hfault hmode).trans (runningStep_error hfetch), rfl, s.sameBut_raise none f⟩

/-- Settles O7: `State.fetch_error` names the first address out of range, the larger of 4096 and PC; inside memory the
step executes the word `State.fetch_ok` gives. -/
theorem fetchReadsBigEndianWordOrFaults : Obligations.FetchReadsBigEndianWordOrFaults := by
  intro s hfault hmode
  refine ⟨fun hpc => ?_, fun hpc => ?_, fun hpc => ?_⟩
  · have hfetch := s.fetch_error (by rw [memSize]; omega)
    rw [memSize, Nat.max_eq_right hpc] at hfetch
    exact step_fetch_error hfault hmode hfetch
  · have hfetch := s.fetch_error (by rw [memSize]; omega)
    rw [hpc] at hfetch
    exact step_fetch_error hfault hmode hfetch
  · have hfetch := s.fetch_ok (by rw [memSize]; omega)
    rw [step_running hfault hmode, runningStep_ok hfetch, wordOfBytes_eq_shift_or]

/-! ### The skip instructions (40_fetch_execute.md R64, R65) -/

/-- The key number in range is the low nibble of the register, out of range there is none (45_input_timers.md R109). -/
theorem keyIndex_of_inRange {mode : KeyIndexMode} {v : Byte} (h : ¬ (mode = .fault ∧ 15 < v.toNat)) :
    keyIndex mode v = .ok (v.setWidth 4) := by
  rcases keyIndex_cases mode v with ⟨-, hok⟩ | ⟨hmode, hrange, -⟩
  · rw [hok, BitVec.setWidth_eq_extractLsb' (by decide)]
  · exact absurd ⟨hmode, hrange⟩ h

/-- A skip instruction whose condition has a truth value ends with the skip that value asks for. -/
theorem exec_of_skipCondition {i : Instr} {s : State} {c : Bool} (h : s.skipCondition i = some c) :
    exec i s = s.complete i (skipIf c) := by
  cases i with
  | seImm x kk | seReg x y => cases h; rfl
  | sneImm x kk | sneReg x y =>
    cases h
    rw [decide_not]
    rfl
  | skp x | sknp x =>
    obtain ⟨k, hk, rfl⟩ := Option.map_eq_some_iff.1 h
    obtain ⟨hrange, hkey⟩ := Option.ite_none_left_eq_some.1 hk
    cases hkey
    simp only [exec, execSkp, execSknp, keyIndex_of_inRange hrange]
  | cls | ret | jp _ | call _ | ldImm _ _ | addImm _ _ | ldReg _ _ | orReg _ _ | andReg _ _ | xorReg _ _ | addReg _ _
  | subReg _ _ | shr _ _ | subnReg _ _ | shl _ _ | ldI _ | jpV0 _ | rnd _ _ | drw _ _ _ | ldVxDt _ | ldVxK _ | ldDtVx _
  | ldStVx _ | addIVx _ | ldFVx _ | ldBVx _ | ldMemVx _ | ldVxMem _ => cases h

/-- Settles O27: a skip instruction whose condition holds completes with SkipNext, whose effect is PC + 4. -/
theorem skipNextAdvancesTwoWords : Obligations.SkipNextAdvancesTwoWords := by
  intro i s h
  rw [exec_of_skipCondition h, State.complete, skipIf_true, State.applyEffect_skipNext]

/-! ### Calls and returns (40_fetch_execute.md R67, R68) -/

theorem exec_call (nnn : Addr) (s : State) :
    exec (.call nnn) s = .next (s.enterSubroutine (encode (.call nnn)) (zextAddr nnn)) := rfl

theorem exec_ret (s : State) : exec .ret s = .next (s.exitSubroutine (encode .ret)) := rfl

@[simp] theorem toNat_zextAddr (nnn : Addr) : (zextAddr nnn).toNat = nnn.toNat :=
  BitVec.toNat_setWidth_of_le (by decide)

/-- Settles O30: with room on the stack the state is that of `State.enterSubroutine_room`, on a full one that of
`State.enterSubroutine_full`. -/
theorem callPushesReturnAddress : Obligations.CallPushesReturnAddress := by
  intro nnn s
  refine ⟨fun hroom => ⟨_, exec_call nnn s, ?_⟩, fun hfull => ⟨_, exec_call nnn s, ?_⟩⟩
  · rw [State.enterSubroutine_room _ _ hroom]
    have hpushed : ∀ k : Fin 16, k.val = s.sp.val → (s.stack.set s.sp.val (s.pc + 2) hroom).get k = s.pc + 2 :=
      fun k hk => by simp [Vector.get_eq_getElem, hk]
    have hkept : ∀ k : Fin 16, k.val ≠ s.sp.val → (s.stack.set s.sp.val (s.pc + 2) hroom).get k = s.stack.get k :=
      fun k hk => Vector.getElem_set_ne _ _ hk.symm
    exact ⟨hpushed, hkept, rfl, toNat_zextAddr nnn,
      State.sameBut_setControl (by simp) (by simp) (by simp) (fun _ => rfl)⟩
  · rw [State.enterSubroutine_full _ _ (by omega)]
    exact ⟨s.haltedBy_raise _ _, s.sameBut_raise _ _⟩

/-- Settles O31: with an entry on the stack the state is that of `State.exitSubroutine_entry`, on an empty one that of
`State.exitSubroutine_empty`. -/
theorem returnPopsIntoPc : Obligations.ReturnPopsIntoPc := by
  intro s
  refine ⟨fun hentry => ⟨_, exec_ret s, ?_⟩, fun hempty => ⟨_, exec_ret s, ?_⟩⟩
  · rw [State.exitSubroutine_entry _ hentry]
    have hpopped : ∀ k : Fin 16, k.val = s.sp.val - 1 → s.stack[s.sp.val - 1]'(by omega) = s.stack.get k :=
      fun k hk => by simp [Vector.get_eq_getElem, hk]
    exact ⟨rfl, hpopped, State.sameBut_setControl (by simp) (fun _ => rfl) (by simp) (fun _ => rfl)⟩
  · rw [State.exitSubroutine_empty _ (by omega)]
    exact ⟨s.haltedBy_raise _ _, s.sameBut_raise _ _⟩

/-! ### The mode of the next state (40_fetch_execute.md R69) -/

/-- Every effect but AwaitKey keeps the mode. -/
theorem State.applyEffect_mode (s : State) (w : Word) {e : Effect} (he : ∀ r, e ≠ .awaitKey r) :
    (s.applyEffect w e).mode = s.mode := by
  cases e with
  | awaitKey r => exact absurd rfl (he r)
  | enterSubroutine a =>
    by_cases h : s.sp.val < 16
    · rw [State.applyEffect_enter, State.enterSubroutine_room w a h]
    · rw [State.applyEffect_enter, State.enterSubroutine_full w a h, State.raise_mode]
  | exitSubroutine =>
    by_cases h : 0 < s.sp.val
    · rw [State.applyEffect_exit, State.exitSubroutine_entry w h]
    · rw [State.applyEffect_exit, State.exitSubroutine_empty w h, State.raise_mode]
  | noOp | advance | skipNext | jump _ => rfl

@[simp] theorem State.unmatched_mode (s : State) (w : Word) : (s.unmatched w).mode = s.mode := by
  rcases s.unmatched_cases w with ⟨-, h⟩ | ⟨-, h⟩ | ⟨-, h⟩ <;> rw [h]
  exact State.raise_mode ..

@[simp] theorem State.writeFlagged_mode (s : State) (x y : Nibble) (flag result : Byte → Byte → Byte) :
    (s.writeFlagged x y flag result).mode = s.mode := by
  rw [State.writeFlagged_frame]

/-- An instruction that completes with an effect other than AwaitKey keeps the mode, if the state it made did. -/
theorem State.complete_mode {s u t : State} {i : Instr} {e : Effect} (h : u.complete i e = .next t)
    (he : ∀ r, e ≠ .awaitKey r) (hu : u.mode = s.mode) : t.mode = s.mode := by
  cases h
  exact (u.applyEffect_mode _ he).trans hu

/-- An instruction that raises a fault keeps the mode, if the state it left did. -/
theorem State.abort_mode {s u t : State} {i : Instr} {f : Fault} (h : u.abort i f = .next t) (hu : u.mode = s.mode) :
    t.mode = s.mode := by
  cases h
  exact hu

/-- Storing bytes changes memory only. -/
theorem State.eq_setMem_of_storeBytes : ∀ {bs : List Byte} {s t : State} {a : Nat},
    s.storeBytes a bs = .ok t → t = { s with mem := t.mem }
  | [], _, _, _, h => by cases h; rfl
  | b :: bs, s, t, a, h => by
    by_cases ha : a < memSize
    · rw [State.storeBytes, s.memWrite_inRange b ha] at h
      rw [State.eq_setMem_of_storeBytes h]
      rfl
    · rw [State.storeBytes, s.memWrite_outOfRange b (Nat.not_lt.1 ha)] at h
      cases h

/-- Loading registers changes the registers only. -/
theorem State.eq_setRegs_of_loadRegisters : ∀ {ks : List Nat} {s t : State} {a : Nat},
    s.loadRegisters a ks = .ok t → t = { s with regs := t.regs }
  | [], _, _, _, h => by cases h; rfl
  | k :: ks, s, t, a, h => by
    by_cases ha : a + k < memSize
    · rw [State.loadRegisters, s.memRead_inRange ha] at h
      rw [State.eq_setRegs_of_loadRegisters h]
      rfl
    · rw [State.loadRegisters, s.memRead_outOfRange (Nat.not_lt.1 ha)] at h
      cases h

theorem skipIf_ne_awaitKey (c : Bool) (r : Nibble) : skipIf c ≠ .awaitKey r := by
  cases c <;> nofun

/-- Every instruction but `LD Vx, K` keeps the mode: it ends with another effect, or with a fault, on a state whose mode
its own work has not touched. -/
theorem exec_mode {i : Instr} {s t : State} (hi : ∀ x, i ≠ .ldVxK x) (h : exec i s = .next t) : t.mode = s.mode := by
  cases i with
  | ldVxK x => exact absurd rfl (hi x)
  | cls | ldImm _ _ | addImm _ _ | orReg _ _ | andReg _ _ | xorReg _ _ | addReg _ _ | ldI _ | ldFVx _ | ldVxDt _
  | ldDtVx _ | ldStVx _ | jp _ | jpV0 _ | call _ | ret => exact State.complete_mode h (fun _ => nofun) rfl
  | seImm _ _ | sneImm _ _ | seReg _ _ | sneReg _ _ => exact State.complete_mode h (skipIf_ne_awaitKey _) rfl
  | subReg _ _ | shr _ _ | subnReg _ _ | shl _ _ =>
    exact State.complete_mode h (fun _ => nofun) (State.writeFlagged_mode ..)
  | ldReg x y =>
    rw [exec, execLdReg] at h
    split at h
    · exact State.complete_mode h (fun _ => nofun) rfl
    · cases h
      exact s.unmatched_mode _
  | addIVx x =>
    simp only [exec, execAddIVx] at h
    split at h
    · split at h
      · exact State.complete_mode h (fun _ => nofun) rfl
      · exact State.abort_mode h rfl
    · exact State.complete_mode h (fun _ => nofun) rfl
  | skp x | sknp x =>
    simp only [exec, execSkp, execSknp] at h
    split at h
    · exact State.complete_mode h (skipIf_ne_awaitKey _) rfl
    · exact State.abort_mode h rfl
  | rnd x kk =>
    simp only [exec, execRnd] at h
    split at h <;> cases h <;> rfl
  | drw x y n =>
    rw [exec, execDrw] at h
    split at h
    · exact State.complete_mode h (fun _ => nofun) rfl
    · exact State.abort_mode h rfl
  | ldBVx x | ldMemVx x =>
    simp only [exec, execLdBVx, execLdMemVx] at h
    split at h
    · rename_i hstore
      exact State.complete_mode h (fun _ => nofun) (by rw [State.eq_setMem_of_storeBytes hstore])
    · exact State.abort_mode h (by rw [(s.freeStore_spec _ _).1])
  | ldVxMem x =>
    rw [exec, execLdVxMem] at h
    split at h
    · rename_i hload
      exact State.complete_mode h (fun _ => nofun) (by rw [State.eq_setRegs_of_loadRegisters hload])
    · exact State.abort_mode h (by rw [(s.freeRegisters_spec _ fun _ => registersTo_lt).1])

theorem exec_ldVxK (x : Nibble) (s : State) :
    exec (.ldVxK x) s = .next { s with pc := s.pc + 2, mode := .awaitingKey x } := rfl

/-- Settles O54: `LD Vx, K` is the AwaitKey effect, and every other instruction keeps the mode by `exec_mode`. -/
theorem waitForKeyIsEnteredByItsInstruction : Obligations.WaitForKeyIsEnteredByItsInstruction := by
  refine ⟨fun x s => ⟨_, exec_ldVxK x s, rfl, rfl,
    State.sameBut_setControl (by simp) (fun _ => rfl) (fun _ => rfl) (by simp)⟩, fun i s t r hrun h hwait => ?_⟩
  by_cases hi : ∃ x, i = .ldVxK x
  · obtain ⟨x, rfl⟩ := hi
    cases h
    cases hwait
    rfl
  · have hkept : t.mode = s.mode := exec_mode (not_exists.1 hi) h
    rw [hkept, hrun] at hwait
    cases hwait

end Sys2Proof.Machine

/-! ## The obligations of the display (44_display.md) -/

namespace Sys2Proof.Machine

/-! ### The word of `CLS` (44_display.md R106) -/

/-- No row of the opcode map after the first builds `CLS`. -/
theorem build_ne_cls (w : Word) : ∀ r ∈ opcodeTable.tail, r.build w ≠ .cls := by
  simp [opcodeTable, opcodeRowsLow, opcodeRowsAlu, opcodeRowsMid, opcodeRowsHigh]

theorem decodeWord_cls_iff (w : Word) : decodeWord w = some .cls ↔ w = encode .cls := by
  constructor
  · intro h
    obtain ⟨r, hmem, hselects, hbuild⟩ := row_of_decodeWord h
    rcases List.mem_cons.1 hmem with rfl | hlater
    · have hmasked : w &&& 0xFFFF#16 = encode .cls := (OpcodeRow.selects_iff _ w).1 hselects
      exact (BitVec.and_allOnes (x := w)).symm.trans hmasked
    · exact absurd hbuild (build_ne_cls w r hlater)
  · rintro rfl
    obtain ⟨r, hmem, hselects, hbuild⟩ := Laws.RowMatch.cls
    rw [decodeWord_of_row hmem hselects, hbuild]

/-! ### What `CLS` does -/

/-- A state that differs in its framebuffer and PC alone agrees on every other field. -/
theorem State.sameBut_setScreen (s : State) (fb : Framebuffer) (pc : Word) :
    s.SameBut { s with fb := fb, pc := pc } [.fb, .pc] := by
  refine ⟨rfl, fun f hf => ?_⟩
  cases f with
  | fb | pc => simp at hf
  | m | v => exact fun _ => rfl
  | free => exact ⟨rfl, rfl⟩
  | i | dt | st | stack | sp | keys | mode | fault => rfl

theorem exec_cls (s : State) : exec .cls s = .next { s with fb := clearFramebuffer, pc := s.pc + 2 } := rfl

/-- Settles O47: only the first row of the opcode map builds `CLS`, and its mask keeps every bit of the word; the state of
`exec_cls` has the cleared framebuffer and the next PC. -/
theorem clearScreenTurnsEveryPixelOff : Obligations.ClearScreenTurnsEveryPixelOff :=
  ⟨decodeWord_cls_iff, fun s => ⟨_, exec_cls s, pixel_clear, rfl, s.sameBut_setScreen _ _⟩⟩

end Sys2Proof.Machine

/-! ## The obligations of the key matrix (60_exceptions.md) -/

namespace Sys2Proof.Machine

/-! ### The key calls (60_exceptions.md R129) -/

/-- A state that differs in its keys alone agrees on every other field. -/
theorem State.sameBut_setKeys (s : State) (keys : Vector Bool 16) : s.SameBut { s with keys := keys } [.keys] := by
  refine ⟨rfl, fun f hf => ?_⟩
  cases f with
  | keys => exact absurd (List.mem_singleton_self _) hf
  | m | v => exact fun _ => rfl
  | free => exact ⟨rfl, rfl⟩
  | i | pc | dt | st | stack | sp | fb | mode | fault => rfl

theorem perform_press (s : State) (k : Nibble) : perform (.press k.toNat) s = .next (s.setKey k true) := by
  rw [perform, if_pos k.isLt, BitVec.ofNat_toNat, BitVec.setWidth_eq]

theorem perform_release (s : State) (k : Nibble) : perform (.release k.toNat) s = .next (s.setKey k false) := by
  rw [perform, if_pos k.isLt, BitVec.ofNat_toNat, BitVec.setWidth_eq]

/-- What `Press` and `Release` share: a call that moves to the state with key `k` set to `down` does that and no more. -/
theorem setKey_of_perform {c : Command} {s : State} {k : Nibble} {down : Bool}
    (h : perform c s = .next (s.setKey k down)) :
    ∃ t, perform c s = .next t ∧ t.keyDown k = down ∧
      (∀ j : Nibble, j ≠ k → t.keyDown j = s.keyDown j) ∧ s.SameBut t [.keys] := by
  have hset : (s.setKey k down).keyDown k = down := by rw [State.keyDown_setKey, if_pos rfl]
  have hkept : ∀ j : Nibble, j ≠ k → (s.setKey k down).keyDown j = s.keyDown j :=
    fun j hj => by rw [State.keyDown_setKey, if_neg hj]
  exact ⟨_, h, hset, hkept, s.sameBut_setKeys _⟩

/-! ### The scan (60_exceptions.md R130) -/

theorem mem_keyScan (k : Nibble) : k ∈ keyScan := by
  revert k
  decide

theorem toNat_getElem_keyScan : ∀ (n : Nat) (h : n < keyScan.length), keyScan[n].toNat = n := by decide

theorem toNat_lt_length_keyScan (k : Nibble) : k.toNat < keyScan.length := k.isLt

theorem getElem_keyScan_toNat (k : Nibble) : keyScan[k.toNat]'(toNat_lt_length_keyScan k) = k :=
  BitVec.eq_of_toNat_eq (toNat_getElem_keyScan _ _)

theorem State.firstPressed_eq_none_iff (s : State) : s.firstPressed = none ↔ ∀ k : Nibble, s.keyDown k = false := by
  simp [State.firstPressed, mem_keyScan]

/-- The scan stops at the key it finds, and place `n` of the scan is key `n`: so the keys passed over are the lower ones. -/
theorem State.firstPressed_eq_some_iff (s : State) (k : Nibble) :
    s.firstPressed = some k ↔ s.keyDown k = true ∧ ∀ j : Nibble, j.toNat < k.toNat → s.keyDown j = false := by
  rw [State.firstPressed, List.find?_eq_some_iff_getElem]
  refine and_congr_right fun _ => ⟨?_, fun hlow =>
    ⟨k.toNat, toNat_lt_length_keyScan k, getElem_keyScan_toNat k, fun n hn => ?_⟩⟩
  · rintro ⟨n, hn, rfl, hpassed⟩ j hj
    rw [toNat_getElem_keyScan] at hj
    have hup := hpassed j.toNat hj
    rwa [getElem_keyScan_toNat, Bool.not_eq_true'] at hup
  · have hup := hlow (keyScan[n]'(hn.trans (toNat_lt_length_keyScan k))) (by rwa [toNat_getElem_keyScan])
    rwa [Bool.not_eq_true']

/-! ### The obligation -/

/-- Settles O17: `Press` and `Release` are `State.setKey` on their key, `ReleaseAll` is `State.releaseAll`, and the scan is
that of `State.firstPressed_eq_none_iff` and `State.firstPressed_eq_some_iff`. -/
theorem keyCallsActOnTheirKeys : Obligations.KeyCallsActOnTheirKeys := by
  intro s
  exact ⟨fun k => setKey_of_perform (perform_press s k), fun k => setKey_of_perform (perform_release s k),
    ⟨s.releaseAll, rfl, s.keyDown_releaseAll, s.sameBut_setKeys _⟩, fun _ => rfl,
    s.firstPressed_eq_none_iff, s.firstPressed_eq_some_iff⟩

end Sys2Proof.Machine

/-! ## The obligations of encoding and decoding (30_encoding.md) -/

namespace Sys2Proof

/-! ### Encode, then decode (30_encoding.md R59) -/

/-- Every instruction's word is selected by its own row of the opcode map. -/
theorem rowMatch : ∀ i : Instr, Laws.RowMatch.Statement i
  | .cls => Laws.RowMatch.cls
  | .ret => Laws.RowMatch.ret
  | .jp nnn => Laws.RowMatch.jp nnn
  | .call nnn => Laws.RowMatch.call nnn
  | .seImm x kk => Laws.RowMatch.seImm x kk
  | .sneImm x kk => Laws.RowMatch.sneImm x kk
  | .seReg x y => Laws.RowMatch.seReg x y
  | .ldImm x kk => Laws.RowMatch.ldImm x kk
  | .addImm x kk => Laws.RowMatch.addImm x kk
  | .ldReg x y => Laws.RowMatch.ldReg x y
  | .orReg x y => Laws.RowMatch.orReg x y
  | .andReg x y => Laws.RowMatch.andReg x y
  | .xorReg x y => Laws.RowMatch.xorReg x y
  | .addReg x y => Laws.RowMatch.addReg x y
  | .subReg x y => Laws.RowMatch.subReg x y
  | .shr x y => Laws.RowMatch.shr x y
  | .subnReg x y => Laws.RowMatch.subnReg x y
  | .shl x y => Laws.RowMatch.shl x y
  | .sneReg x y => Laws.RowMatch.sneReg x y
  | .ldI nnn => Laws.RowMatch.ldI nnn
  | .jpV0 nnn => Laws.RowMatch.jpV0 nnn
  | .rnd x kk => Laws.RowMatch.rnd x kk
  | .drw x y n => Laws.RowMatch.drw x y n
  | .skp x => Laws.RowMatch.skp x
  | .sknp x => Laws.RowMatch.sknp x
  | .ldVxDt x => Laws.RowMatch.ldVxDt x
  | .ldVxK x => Laws.RowMatch.ldVxK x
  | .ldDtVx x => Laws.RowMatch.ldDtVx x
  | .ldStVx x => Laws.RowMatch.ldStVx x
  | .addIVx x => Laws.RowMatch.addIVx x
  | .ldFVx x => Laws.RowMatch.ldFVx x
  | .ldBVx x => Laws.RowMatch.ldBVx x
  | .ldMemVx x => Laws.RowMatch.ldMemVx x
  | .ldVxMem x => Laws.RowMatch.ldVxMem x

theorem decodeWord_encode (i : Instr) : decodeWord (encode i) = some i := by
  obtain ⟨r, hmem, hselects, hbuild⟩ := rowMatch i
  rw [decodeWord_of_row hmem hselects, hbuild]

/-- The two bytes of a word, high byte first, spell the word. -/
theorem wordOfBytes_extract (w : Word) : wordOfBytes (w.extractLsb' 8 8) (w.extractLsb' 0 8) = w := by
  rw [wordOfBytes, BitVec.extractLsb'_append_extractLsb'_eq_extractLsb' (by decide), BitVec.extractLsb'_eq_self]

theorem decode_bytesOfWord (w : Word) (rest : List Byte) {i : Instr} (h : decodeWord w = some i) :
    decode (bytesOfWord w ++ rest) = .ok (i, rest) := by
  simp only [bytesOfWord, List.cons_append, List.nil_append, decode, wordOfBytes_extract, h]

/-- Settles O2: the word of an instruction is selected by the row that builds the instruction back (`rowMatch`), and its
bytes spell the word. -/
theorem decodeEncodeRoundTrip : Obligations.DecodeEncodeRoundTrip := fun i rest =>
  ⟨decodeWord_encode i, decode_bytesOfWord _ rest (decodeWord_encode i)⟩

/-! ### The fixed digits of a row (30_encoding.md R53)

What it takes for a word to have the digits a mask keeps: the leading digit, and the low digits that are fixed. -/

theorem toNat_opDigit (w : Word) : (w.extractLsb' 12 4).toNat = w.toNat / 4096 := by
  have := w.isLt
  rw [BitVec.extractLsb'_toNat, Nat.shiftRight_eq_div_pow]
  omega

theorem and_F000_eq_iff {w v : Word} (hv : v &&& 0xF000#16 = v) :
    w &&& 0xF000 = v ↔ w.extractLsb' 12 4 = v.extractLsb' 12 4 := by
  change w &&& 0xF000#16 = v ↔ _
  conv_lhs => rw [← hv]
  simp only [← BitVec.toNat_inj, toNat_and_F000, toNat_opDigit]
  omega

theorem and_F00F_eq_iff {w v : Word} (hv : v &&& 0xF00F#16 = v) :
    w &&& 0xF00F = v ↔ w.extractLsb' 12 4 = v.extractLsb' 12 4 ∧ fieldN w = fieldN v := by
  change w &&& 0xF00F#16 = v ↔ _
  conv_lhs => rw [← hv]
  simp only [← BitVec.toNat_inj, toNat_and_F00F, toNat_opDigit, toNat_fieldN]
  omega

theorem and_F0FF_eq_iff {w v : Word} (hv : v &&& 0xF0FF#16 = v) :
    w &&& 0xF0FF = v ↔ w.extractLsb' 12 4 = v.extractLsb' 12 4 ∧ fieldKk w = fieldKk v := by
  change w &&& 0xF0FF#16 = v ↔ _
  conv_lhs => rw [← hv]
  simp only [← BitVec.toNat_inj, toNat_and_F0FF, toNat_opDigit, toNat_fieldKk]
  omega

theorem and_FFFF_eq_iff {w v : Word} :
    w &&& 0xFFFF = v ↔ w.extractLsb' 12 4 = v.extractLsb' 12 4 ∧ fieldNnn w = fieldNnn v := by
  change w &&& 0xFFFF#16 = v ↔ _
  simp only [← BitVec.toNat_inj, toNat_and_FFFF, toNat_opDigit, toNat_fieldNnn]
  omega

/-! ### Decode, then encode (30_encoding.md R59) -/

/-- A row whose instruction's encoding gives back every word the row selects. -/
def OpcodeRow.Recomposes (r : OpcodeRow) : Prop := ∀ w : Word, w &&& r.mask = r.value → encode (r.build w) = w

/-! A word is its leading digit and its fields. Below, the digits that a mask fixes are those of the row's value. -/

theorem word_opDigit_nnn (w : Word) : (w.extractLsb' 12 4 ++ fieldNnn w : Word) = w := by
  apply BitVec.eq_of_toNat_eq
  rw [toNat_nnn, toNat_fieldNnn, toNat_opDigit]
  omega

theorem word_opDigit_xkk (w : Word) : (w.extractLsb' 12 4 ++ fieldX w ++ fieldKk w : Word) = w := by
  have := w.isLt
  apply BitVec.eq_of_toNat_eq
  rw [toNat_xkk, toNat_fieldX, toNat_fieldKk, toNat_opDigit]
  omega

theorem word_nnn {w v : Word} (hv : v &&& 0xF000#16 = v) (h : w &&& 0xF000#16 = v) :
    (v.extractLsb' 12 4 ++ fieldNnn w : Word) = w := by
  rw [← (and_F000_eq_iff hv).1 h, word_opDigit_nnn]

theorem word_xkk {w v : Word} (hv : v &&& 0xF000#16 = v) (h : w &&& 0xF000#16 = v) :
    (v.extractLsb' 12 4 ++ fieldX w ++ fieldKk w : Word) = w := by
  rw [← (and_F000_eq_iff hv).1 h, word_opDigit_xkk]

theorem word_xyn {w v : Word} (hv : v &&& 0xF000#16 = v) (h : w &&& 0xF000#16 = v) :
    (v.extractLsb' 12 4 ++ fieldX w ++ fieldY w ++ fieldN w : Word) = w := by
  rw [← (and_F000_eq_iff hv).1 h, ← word_nibbles]

theorem word_xy {w v : Word} (hv : v &&& 0xF00F#16 = v) (h : w &&& 0xF00F#16 = v) :
    (v.extractLsb' 12 4 ++ fieldX w ++ fieldY w ++ fieldN v : Word) = w := by
  obtain ⟨hp, hn⟩ := (and_F00F_eq_iff hv).1 h
  rw [← hp, ← hn, ← word_nibbles]

theorem word_x {w v : Word} (hv : v &&& 0xF0FF#16 = v) (h : w &&& 0xF0FF#16 = v) :
    (v.extractLsb' 12 4 ++ fieldX w ++ fieldKk v : Word) = w := by
  obtain ⟨hp, hkk⟩ := (and_F0FF_eq_iff hv).1 h
  rw [← hp, ← hkk, word_opDigit_xkk]

theorem recomposes_low : ∀ r ∈ opcodeRowsLow, r.Recomposes := by
  simp only [opcodeRowsLow, List.forall_mem_cons]
  exact ⟨fun w h => ((BitVec.and_allOnes (x := w)).symm.trans h).symm,
    fun w h => ((BitVec.and_allOnes (x := w)).symm.trans h).symm,
    fun _ => word_nnn (v := 0x1000#16) rfl,
    fun _ => word_nnn (v := 0x2000#16) rfl,
    fun _ => word_xkk (v := 0x3000#16) rfl,
    fun _ => word_xkk (v := 0x4000#16) rfl,
    fun _ => word_xy (v := 0x5000#16) rfl,
    fun _ => word_xkk (v := 0x6000#16) rfl,
    fun _ => word_xkk (v := 0x7000#16) rfl,
    List.forall_mem_nil _⟩

theorem recomposes_alu : ∀ r ∈ opcodeRowsAlu, r.Recomposes := by
  simp only [opcodeRowsAlu, List.forall_mem_cons]
  exact ⟨fun _ => word_xy (v := 0x8000#16) rfl,
    fun _ => word_xy (v := 0x8001#16) rfl,
    fun _ => word_xy (v := 0x8002#16) rfl,
    fun _ => word_xy (v := 0x8003#16) rfl,
    fun _ => word_xy (v := 0x8004#16) rfl,
    fun _ => word_xy (v := 0x8005#16) rfl,
    fun _ => word_xy (v := 0x8006#16) rfl,
    fun _ => word_xy (v := 0x8007#16) rfl,
    fun _ => word_xy (v := 0x800E#16) rfl,
    List.forall_mem_nil _⟩

theorem recomposes_mid : ∀ r ∈ opcodeRowsMid, r.Recomposes := by
  simp only [opcodeRowsMid, List.forall_mem_cons]
  exact ⟨fun _ => word_xy (v := 0x9000#16) rfl,
    fun _ => word_nnn (v := 0xA000#16) rfl,
    fun _ => word_nnn (v := 0xB000#16) rfl,
    fun _ => word_xkk (v := 0xC000#16) rfl,
    fun _ => word_xyn (v := 0xD000#16) rfl,
    fun _ => word_x (v := 0xE09E#16) rfl,
    fun _ => word_x (v := 0xE0A1#16) rfl,
    List.forall_mem_nil _⟩

theorem recomposes_high : ∀ r ∈ opcodeRowsHigh, r.Recomposes := by
  simp only [opcodeRowsHigh, List.forall_mem_cons]
  exact ⟨fun _ => word_x (v := 0xF007#16) rfl,
    fun _ => word_x (v := 0xF00A#16) rfl,
    fun _ => word_x (v := 0xF015#16) rfl,
    fun _ => word_x (v := 0xF018#16) rfl,
    fun _ => word_x (v := 0xF01E#16) rfl,
    fun _ => word_x (v := 0xF029#16) rfl,
    fun _ => word_x (v := 0xF033#16) rfl,
    fun _ => word_x (v := 0xF055#16) rfl,
    fun _ => word_x (v := 0xF065#16) rfl,
    List.forall_mem_nil _⟩

theorem recomposes_opcodeTable : ∀ r ∈ opcodeTable, r.Recomposes := by
  simp only [opcodeTable, List.forall_mem_append]
  exact ⟨⟨⟨recomposes_low, recomposes_alu⟩, recomposes_mid⟩, recomposes_high⟩

/-- Settles O3: the row that selected the word fixes its digits, and the instruction holds the others in its fields. -/
theorem encodeInvertsDecode : Obligations.EncodeInvertsDecode := by
  intro w i h
  obtain ⟨r, hmem, hselects, rfl⟩ := row_of_decodeWord h
  exact recomposes_opcodeTable r hmem w ((r.selects_iff w).1 hselects)

/-! ### The one row of a word (30_encoding.md R53) -/

theorem decodeWord_eq_some_iff (w : Word) (i : Instr) :
    decodeWord w = some i ↔ ∃ r ∈ opcodeTable, w &&& r.mask = r.value ∧ r.build w = i := by
  constructor
  · intro h
    obtain ⟨r, hmem, hselects, hbuild⟩ := row_of_decodeWord h
    exact ⟨r, hmem, (r.selects_iff w).1 hselects, hbuild⟩
  · rintro ⟨r, hmem, hmatch, rfl⟩
    exact decodeWord_of_row hmem ((r.selects_iff w).2 hmatch)

/-- Of two places of the map, the later one's row does not match a word that the earlier one's row matches. -/
theorem row_not_later {w : Word} {j k : Nat} {r q : OpcodeRow} (hj : opcodeTable[j]? = some r)
    (hk : opcodeTable[k]? = some q) (hr : w &&& r.mask = r.value) (hq : w &&& q.mask = q.value) : ¬ j < k := by
  obtain ⟨hjlen, rfl⟩ := List.getElem?_eq_some_iff.1 hj
  obtain ⟨hklen, rfl⟩ := List.getElem?_eq_some_iff.1 hk
  exact fun hjk => rows_disjoint (List.pairwise_iff_getElem.1 opcodeTable_pairwise j k hjlen hklen hjk) hr hq

/-- Settles O4: decoding finds a row that matches, and two rows that match the same word stand at the same place. -/
theorem decodeSelectsTheOnlyMatchingRow : Obligations.DecodeSelectsTheOnlyMatchingRow :=
  ⟨decodeWord_eq_some_iff, fun _ _ _ _ _ hj hk hr hq =>
    Nat.le_antisymm (Nat.not_lt.1 (row_not_later hk hj hq hr)) (Nat.not_lt.1 (row_not_later hj hk hr hq))⟩

/-! ### The unmatched words (30_encoding.md R55) -/

theorem decodeWord_eq_none_iff (w : Word) : decodeWord w = none ↔ ∀ r ∈ opcodeTable, ¬ w &&& r.mask = r.value := by
  simp only [decodeWord_none, ← OpcodeRow.selects_iff, Bool.not_eq_true]

theorem nibble_cases : ∀ p : Nibble, p = 0 ∨ p = 1 ∨ p = 2 ∨ p = 3 ∨ p = 4 ∨ p = 5 ∨ p = 6 ∨ p = 7 ∨ p = 8 ∨ p = 9 ∨
    p = 10 ∨ p = 11 ∨ p = 12 ∨ p = 13 ∨ p = 14 ∨ p = 15 := by decide

/-- The low digits that no `8xyN` row fixes. -/
theorem aluDigit_unlisted : ∀ n : Nibble,
    ¬ n = 0#4 ∧ ¬ n = 1#4 ∧ ¬ n = 2#4 ∧ ¬ n = 3#4 ∧ ¬ n = 4#4 ∧ ¬ n = 5#4 ∧ ¬ n = 6#4 ∧ ¬ n = 7#4 ∧ ¬ n = 14#4 ↔
      n = 8#4 ∨ n = 9#4 ∨ n = 10#4 ∨ n = 11#4 ∨ n = 12#4 ∨ n = 13#4 ∨ n = 15#4 := by decide

/-- Settles O5: a row matches by the digits its mask keeps; the word's leading digit leaves the rows of that digit. -/
theorem unmatchedWordsAreExactlyTheListed : Obligations.UnmatchedWordsAreExactlyTheListed := by
  intro w
  rw [decodeWord_eq_none_iff]
  simp (discharger := decide) only [opcodeTable, opcodeRowsLow, opcodeRowsAlu, opcodeRowsMid, opcodeRowsHigh,
    List.forall_mem_append, List.forall_mem_cons, and_F000_eq_iff, and_F00F_eq_iff, and_F0FF_eq_iff, and_FFFF_eq_iff]
  have hdigit := nibble_cases (w.extractLsb' 12 4)
  generalize w.extractLsb' 12 4 = p at *
  generalize fieldN w = n
  rcases hdigit with rfl | rfl | rfl | rfl | rfl | rfl | rfl | rfl | rfl | rfl | rfl | rfl | rfl | rfl | rfl | rfl
  all_goals simp [fieldN, fieldKk, fieldNnn, aluDigit_unlisted]

/-! ### Sample words -/

/-- Settles O1: each of the words that decode is the encoding of its instruction; the last two match no row. -/
theorem sampleWordsDecode : Obligations.SampleWordsDecode :=
  ⟨decodeWord_encode .cls, decodeWord_encode .ret, decodeWord_encode (.call 0x210#12),
    decodeWord_encode (.seImm 3 0x2A#8), decodeWord_encode (.addReg 0xA 0), decodeWord_encode (.rnd 3 0x0F#8),
    decodeWord_encode (.ldI 0x300#12), decodeWord_encode (.ldVxMem 2), decodeWord_encode (.drw 1 2 5),
    decodeWord_encode (.skp 1), by decide, by decide⟩

end Sys2Proof

/-! ## What an instruction can do: its own work, then its effect or a fault -/

namespace Sys2Proof.Machine

/-! ### Agreement of states, field by field -/

/-- A state has every field of another but those listed, when it does so field by field. -/
theorem State.sameBut_of_fields {s t : State} {changed : List Field}
    (h : t.params = s.params ∧ (.m ∉ changed → t.mem = s.mem) ∧ (.v ∉ changed → t.regs = s.regs) ∧
      (.i ∉ changed → t.i = s.i) ∧ (.pc ∉ changed → t.pc = s.pc) ∧ (.dt ∉ changed → t.dt = s.dt) ∧
      (.st ∉ changed → t.st = s.st) ∧ (.stack ∉ changed → t.stack = s.stack) ∧ (.sp ∉ changed → t.sp = s.sp) ∧
      (.fb ∉ changed → t.fb = s.fb) ∧ (.keys ∉ changed → t.keys = s.keys) ∧ (.mode ∉ changed → t.mode = s.mode) ∧
      (.fault ∉ changed → t.fault = s.fault) ∧ (.free ∉ changed → t.rand = s.rand ∧ t.draws = s.draws)) :
    s.SameBut t changed := by
  obtain ⟨hparams, hm, hv, hi, hpc, hdt, hst, hstack, hsp, hfb, hkeys, hmode, hfault, hfree⟩ := h
  refine ⟨hparams, fun f hf => ?_⟩
  cases f with
  | m => exact fun a => by rw [State.byteAt, State.byteAt, hm hf, hparams]
  | v => exact fun r => by simp only [State.v, hv hf]
  | i => exact hi hf
  | pc => exact hpc hf
  | dt => exact hdt hf
  | st => exact hst hf
  | stack => exact hstack hf
  | sp => exact hsp hf
  | fb => exact hfb hf
  | keys => exact hkeys hf
  | mode => exact hmode hf
  | fault => exact hfault hf
  | free => exact hfree hf

theorem State.AgreeOn.trans {s t u : State} {f : Field} (hst : s.AgreeOn t f) (htu : t.AgreeOn u f) :
    s.AgreeOn u f := by
  cases f with
  | m | v => exact fun k => (htu k).trans (hst k)
  | free => exact ⟨htu.1.trans hst.1, htu.2.trans hst.2⟩
  | i | pc | dt | st | stack | sp | fb | keys | mode | fault => exact Eq.trans htu hst

theorem State.SameBut.trans {s t u : State} {first second : List Field} (hst : s.SameBut t first)
    (htu : t.SameBut u second) : s.SameBut u (first ++ second) := by
  refine ⟨htu.1.trans hst.1, fun f hf => ?_⟩
  rw [List.mem_append, not_or] at hf
  exact (hst.2 f hf.1).trans (htu.2 f hf.2)

theorem State.SameBut.mono {s t : State} {changed more : List Field} (h : s.SameBut t changed) (hsub : changed ⊆ more) :
    s.SameBut t more :=
  ⟨h.1, fun f hf => h.2 f fun hmem => hf (hsub hmem)⟩

theorem State.sameBut_setPc (s : State) (pc : Word) : s.SameBut { s with pc := pc } [.pc] :=
  State.sameBut_of_fields (by simp)

theorem State.sameBut_setV (s : State) (x : Nibble) (b : Byte) : s.SameBut (s.setV x b) [.v] :=
  State.sameBut_of_fields (by simp)

/-! ### The work of an instruction -/

/-- The instructions whose own work, before any effect or fault, may change a field (10_state.md R16 to R30). -/
def Writes (i : Instr) : Field → Prop
  | .v => ∃ r, MayWrite i r
  | .dt => ∃ x, i = .ldDtVx x
  | .st => ∃ x, i = .ldStVx x
  | .i => (∃ nnn, i = .ldI nnn) ∨ (∃ x, i = .addIVx x) ∨ (∃ x, i = .ldFVx x)
  | .fb => i = .cls ∨ ∃ x y n, i = .drw x y n
  | .m => (∃ x, i = .ldBVx x) ∨ (∃ x, i = .ldMemVx x)
  | .free => (∃ x kk, i = .rnd x kk) ∨ (∃ x y n, i = .drw x y n) ∨ (∃ x, i = .ldBVx x) ∨ (∃ x, i = .ldMemVx x) ∨
      (∃ x, i = .ldVxMem x)
  | .pc | .stack | .sp | .keys | .mode | .fault => False

/-- `u` is a state that the own work of instruction `i` can make of `s`, one write after the other. -/
inductive Work (i : Instr) (s : State) : State → Prop
  | start : Work i s s
  | setV {u : State} {x : Nibble} {b : Byte} : Work i s u → MayWrite i x → Work i s (u.setV x b)
  | poke {u : State} {a : Nat} {b : Byte} : Work i s u → Writes i .m → a < memSize → Work i s (u.poke a b)
  | setI {u : State} {w : Word} : Work i s u → Writes i .i → Work i s { u with i := w }
  | setDt {u : State} {b : Byte} : Work i s u → Writes i .dt → Work i s { u with dt := b }
  | setSt {u : State} {b : Byte} : Work i s u → Writes i .st → Work i s { u with st := b }
  | setFb {u : State} {fb : Framebuffer} : Work i s u → Writes i .fb → Work i s { u with fb := fb }
  | setFree {u : State} {rand : Option Draw} {draws : Nat} :
      Work i s u → Writes i .free → Work i s { u with rand := rand, draws := draws }

section
variable {i : Instr} {s u : State}

/-- A write to a field that the instruction may write keeps the frame. -/
theorem frame_step {w : State} {g : Field} (hu : u.params = s.params ∧ ∀ f, ¬ Writes i f → s.AgreeOn u f)
    (hg : Writes i g) (h : u.SameBut w [g]) : w.params = s.params ∧ ∀ f, ¬ Writes i f → s.AgreeOn w f :=
  ⟨h.1.trans hu.1, fun f hf => (hu.2 f hf).trans (h.2 f fun hmem => hf (List.mem_singleton.1 hmem ▸ hg))⟩

/-- The work of an instruction changes no field but those it writes. -/
theorem Work.frame (h : Work i s u) : u.params = s.params ∧ ∀ f, ¬ Writes i f → s.AgreeOn u f := by
  induction h with
  | start => exact ⟨rfl, fun f _ => (State.sameBut_of_fields (changed := []) (by simp)).2 f (by simp)⟩
  | @setV u x b _ hx ih => exact frame_step ih (g := .v) ⟨x, hx⟩ (u.sameBut_setV x b)
  | @poke u a b _ hi _ ih => exact frame_step ih hi (u.sameBut_poke a b)
  | setI _ hi ih | setDt _ hi ih | setSt _ hi ih | setFb _ hi ih | setFree _ hi ih =>
    exact frame_step ih hi (State.sameBut_of_fields (by simp))

/-- The work of an instruction changes no register but those it may write. -/
theorem Work.v (h : Work i s u) {r : Nibble} (hr : ¬ MayWrite i r) : u.v r = s.v r := by
  induction h with
  | start => rfl
  | @setV u x b _ hx ih => exact (u.v_setV_other b fun (e : r = x) => hr (e ▸ hx)).trans ih
  | poke _ _ _ ih | setI _ _ ih | setDt _ _ ih | setSt _ _ ih | setFb _ _ ih | setFree _ _ ih => exact ih

/-- The work of an instruction keeps memory canonical. -/
theorem Work.memWf (h : Work i s u) (hs : s.MemWf) : u.MemWf := by
  induction h with
  | start => exact hs
  | poke _ _ ha ih => exact State.memWf_poke ih ha _
  | setV _ _ ih | setI _ _ ih | setDt _ _ ih | setSt _ _ ih | setFb _ _ ih | setFree _ _ ih => exact ih

theorem Work.pc (h : Work i s u) : u.pc = s.pc := h.frame.2 .pc id
theorem Work.stack (h : Work i s u) : u.stack = s.stack := h.frame.2 .stack id
theorem Work.sp (h : Work i s u) : u.sp = s.sp := h.frame.2 .sp id
theorem Work.fault (h : Work i s u) : u.fault = s.fault := h.frame.2 .fault id

/-! ### The work built of several writes -/

theorem Work.writeFlagged {x y : Nibble} {flag result : Byte → Byte → Byte} (hx : MayWrite i x) (hvf : MayWrite i vf) :
    Work i s (s.writeFlagged x y flag result) := by
  unfold State.writeFlagged
  cases s.params.aluVfOrder with
  | sequential => exact .setV (.setV .start hvf) hx
  | flagLast => exact .setV (.setV .start hx) hvf

/-- Storing bytes is work, up to the first address out of range. -/
theorem Work.storeBytes (hi : Writes i .m) : ∀ {bs : List Byte} {u : State} {a : Nat}, Work i s u →
    (∃ t, u.storeBytes a bs = .ok t ∧ Work i s t) ∨
      ∃ b, memSize ≤ b ∧ u.storeBytes a bs = .error (.memoryBounds b)
  | [], u, _, h => .inl ⟨u, rfl, h⟩
  | b :: bs, u, a, h => by
    by_cases ha : a < memSize
    · simp only [State.storeBytes, u.memWrite_inRange b ha]
      exact Work.storeBytes hi (.poke h hi ha)
    · simp only [State.storeBytes, u.memWrite_outOfRange b (Nat.not_lt.1 ha)]
      exact .inr ⟨a, Nat.not_lt.1 ha, rfl⟩

/-- Loading registers is work, up to the first address out of range. -/
theorem Work.loadRegisters {a : Nat} : ∀ {ks : List Nat} {u : State}, (∀ k ∈ ks, MayWrite i (BitVec.ofNat 4 k)) →
    Work i s u →
    (∃ t, u.loadRegisters a ks = .ok t ∧ Work i s t) ∨
      ∃ b, memSize ≤ b ∧ u.loadRegisters a ks = .error (.memoryBounds b)
  | [], u, _, h => .inl ⟨u, rfl, h⟩
  | k :: ks, u, hks, h => by
    by_cases ha : a + k < memSize
    · simp only [State.loadRegisters, u.memRead_inRange ha]
      exact Work.loadRegisters (fun j hj => hks j (List.mem_cons_of_mem _ hj)) (.setV h (hks k List.mem_cons_self))
    · simp only [State.loadRegisters, u.memRead_outOfRange (Nat.not_lt.1 ha)]
      exact .inr ⟨a + k, Nat.not_lt.1 ha, rfl⟩

/-- Drawing rows ends with a canvas, or at the first address out of range. -/
theorem State.drawRows_cases (s : State) (start : Byte → Byte × Byte) : ∀ (rs : List Nat) (cv : Canvas),
    (∃ drawn, s.drawRows start rs cv = .ok drawn) ∨
      ∃ b, memSize ≤ b ∧ s.drawRows start rs cv = .error (.memoryBounds b)
  | [], cv => .inl ⟨cv, rfl⟩
  | r :: rs, cv => by
    by_cases ha : s.indexed r < memSize
    · simp only [State.drawRows, s.memRead_inRange ha]
      exact s.drawRows_cases start rs _
    · simp only [State.drawRows, s.memRead_outOfRange (Nat.not_lt.1 ha)]
      exact .inr ⟨s.indexed r, Nat.not_lt.1 ha, rfl⟩

theorem Work.freeStore {a : Nat} {ks : List Nat} (hm : Writes i .m) (hfree : Writes i .free) :
    Work i s (s.freeStore a ks) := by
  refine .setFree (rand := _) (List.foldlRecOn ks _ .start fun u hu k _ => ?_) hfree
  split
  · exact .poke hu hm ‹_›
  · exact hu

theorem Work.freeRegisters {ks : List Nat} (hks : ∀ k ∈ ks, MayWrite i (BitVec.ofNat 4 k)) (hfree : Writes i .free) :
    Work i s (s.freeRegisters ks) :=
  .setFree (rand := _) (List.foldlRecOn ks _ .start fun _ hu k hk => .setV hu (hks k hk)) hfree

theorem Work.freeDrawing (hvf : MayWrite i vf) (hfb : Writes i .fb) (hfree : Writes i .free) :
    Work i s s.freeDrawing :=
  .setFree (rand := _) (.setV (.setFb .start hfb) hvf) hfree

end

/-! ### The effects an instruction ends with (40_fetch_execute.md R63) -/

/-- The effects an instruction may yield when it raises nothing. -/
def HasEffect (s : State) (i : Instr) (e : Effect) : Prop :=
  match i with
  | .jp nnn => e = .jump (zextAddr nnn)
  | .jpV0 nnn => e = .jump (offsetTarget nnn (s.v 0))
  | .call nnn => e = .enterSubroutine (zextAddr nnn)
  | .ret => e = .exitSubroutine
  | .ldVxK x => e = .awaitKey x
  | .seImm _ _ | .sneImm _ _ | .seReg _ _ | .sneReg _ _ | .skp _ | .sknp _ => ∃ c, e = skipIf c
  | .ldReg _ _ => e = .advance ∨ (s.params.ldVxVyPresent = false ∧ e = .noOp)
  | .cls | .ldImm _ _ | .addImm _ _ | .orReg _ _ | .andReg _ _ | .xorReg _ _ | .addReg _ _ | .subReg _ _ | .shr _ _
  | .subnReg _ _ | .shl _ _ | .ldI _ | .rnd _ _ | .drw _ _ _ | .ldVxDt _ | .ldDtVx _ | .ldStVx _ | .addIVx _
  | .ldFVx _ | .ldBVx _ | .ldMemVx _ | .ldVxMem _ => e = .advance

/-- The stack has room for the effect's push, or an entry for its pop (40_fetch_execute.md R67, R68). -/
def Effect.Fits (sp : Fin 17) : Effect → Prop
  | .enterSubroutine _ => sp.val < 16
  | .exitSubroutine => 0 < sp.val
  | .noOp | .advance | .awaitKey _ | .skipNext | .jump _ => True

/-- How an instruction ends: with an effect that fits, on what its work left, or with a fault of its class. -/
inductive Ends (i : Instr) (s : State) : State → Prop
  | completes {u : State} {e : Effect} :
      Work i s u → HasEffect s i e → e.Fits s.sp → Ends i s (u.applyEffect (encode i) e)
  | raises {u : State} {f : Fault} : Work i s u → f.RaisedBy i s → Ends i s (u.raise (some (encode i)) f)

section
variable {i : Instr} {s u : State}

/-- An instruction that completes with an effect that needs nothing of the stack. -/
theorem ends_complete {e : Effect} (work : Work i s u) (effect : HasEffect s i e) (fits : e.Fits s.sp) :
    ∃ t, u.complete i e = .next t ∧ Ends i s t :=
  ⟨_, rfl, .completes work effect fits⟩

theorem ends_abort {f : Fault} (work : Work i s u) (cause : f.RaisedBy i s) : ∃ t, u.abort i f = .next t ∧ Ends i s t :=
  ⟨_, rfl, .raises work cause⟩

theorem skipIf_fits (sp : Fin 17) (c : Bool) : (skipIf c).Fits sp := by cases c <;> trivial

end

theorem execLdReg_ends (x y : Nibble) (s : State) :
    ∃ t, exec (.ldReg x y) s = .next t ∧ Ends (.ldReg x y) s t := by
  cases hrow : s.params.ldVxVyPresent with
  | true =>
    simp only [exec, execLdReg, hrow, if_true]
    exact ends_complete (.setV .start rfl) (.inl rfl) trivial
  | false =>
    simp only [exec, execLdReg, hrow, Bool.false_eq_true, if_false]
    refine ⟨_, rfl, ?_⟩
    rcases s.unmatched_cases (encode (.ldReg x y)) with ⟨-, h⟩ | ⟨-, h⟩ | ⟨hpolicy, h⟩ <;> rw [h]
    · exact .completes (e := .noOp) .start (.inr ⟨hrow, rfl⟩) trivial
    · exact .completes (e := .advance) .start (.inl rfl) trivial
    · exact .raises .start ⟨hpolicy, hrow, x, y, rfl⟩

theorem execRnd_ends (x : Nibble) (kk : Byte) (s : State) :
    ∃ t, exec (.rnd x kk) s = .next t ∧ Ends (.rnd x kk) s t := by
  have hdrawn : Work (.rnd x kk) s s.nextDraw := .setFree .start (.inl ⟨x, kk, rfl⟩)
  refine ⟨_, rfl, ?_⟩
  rcases s.drawByte_cases with ⟨-, h⟩ | ⟨hsample, h⟩ <;> rw [h]
  · exact .completes (.setV hdrawn rfl) rfl trivial
  · exact .raises hdrawn ⟨hsample, x, kk, rfl⟩

theorem execAddIVx_ends (x : Nibble) (s : State) :
    ∃ t, exec (.addIVx x) s = .next t ∧ Ends (.addIVx x) s t := by
  have hsum (w : Word) : Work (.addIVx x) s { s with i := w } := .setI .start (.inr (.inl ⟨x, rfl⟩))
  by_cases hover : 0xFFFF < s.i.toNat + (s.v x).toNat
  · cases hpolicy : s.params.indexOverflow with
    | wrap =>
      simp only [exec, execAddIVx, hover, if_true, hpolicy]
      exact ends_complete (hsum _) rfl trivial
    | fault =>
      simp only [exec, execAddIVx, hover, if_true, hpolicy]
      exact ends_abort .start ⟨hpolicy, x, rfl, hover⟩
  · simp only [exec, execAddIVx, hover, if_false]
    exact ends_complete (hsum _) rfl trivial

theorem execSkp_ends (x : Nibble) (s : State) : ∃ t, exec (.skp x) s = .next t ∧ Ends (.skp x) s t := by
  rcases keyIndex_cases s.params.keyIndexMode (s.v x) with ⟨-, h⟩ | ⟨hmode, hrange, h⟩ <;> simp only [exec, execSkp, h]
  · exact ends_complete .start ⟨_, rfl⟩ (skipIf_fits ..)
  · exact ends_abort .start ⟨hmode, hrange, x, rfl, .inl rfl⟩

theorem execSknp_ends (x : Nibble) (s : State) : ∃ t, exec (.sknp x) s = .next t ∧ Ends (.sknp x) s t := by
  rcases keyIndex_cases s.params.keyIndexMode (s.v x) with ⟨-, h⟩ | ⟨hmode, hrange, h⟩ <;> simp only [exec, execSknp, h]
  · exact ends_complete .start ⟨_, rfl⟩ (skipIf_fits ..)
  · exact ends_abort .start ⟨hmode, hrange, x, rfl, .inr rfl⟩

theorem execDrw_ends (x y n : Nibble) (s : State) :
    ∃ t, exec (.drw x y n) s = .next t ∧ Ends (.drw x y n) s t := by
  have hfb : Writes (.drw x y n) .fb := .inr ⟨x, y, n, rfl⟩
  rcases s.drawRows_cases (s.drawStart x y) (List.range n.toNat) ⟨s.fb, 0#8⟩ with ⟨cv, h⟩ | ⟨b, hb, h⟩ <;>
    simp only [exec, execDrw, h]
  · exact ends_complete (.setV (.setFb .start hfb) rfl) rfl trivial
  · exact ends_abort (.freeDrawing rfl hfb (.inr (.inl ⟨x, y, n, rfl⟩))) ⟨hb, .inl ⟨x, y, n, rfl⟩⟩

theorem execLdBVx_ends (x : Nibble) (s : State) : ∃ t, exec (.ldBVx x) s = .next t ∧ Ends (.ldBVx x) s t := by
  have hm : Writes (.ldBVx x) .m := .inl ⟨x, rfl⟩
  rcases Work.storeBytes hm (.start (s := s)) (a := s.indexed 0) (bs := decimalDigits (s.v x)) with
    ⟨t, h, hwork⟩ | ⟨b, hb, h⟩ <;> simp only [exec, execLdBVx, h]
  · exact ends_complete hwork rfl trivial
  · exact ends_abort (.freeStore hm (.inr (.inr (.inl ⟨x, rfl⟩)))) ⟨hb, .inr (.inl ⟨x, rfl⟩)⟩

theorem execLdMemVx_ends (x : Nibble) (s : State) : ∃ t, exec (.ldMemVx x) s = .next t ∧ Ends (.ldMemVx x) s t := by
  have hm : Writes (.ldMemVx x) .m := .inr ⟨x, rfl⟩
  rcases Work.storeBytes hm (.start (s := s)) (a := s.indexed 0) (bs := s.valuesTo x) with
    ⟨t, h, hwork⟩ | ⟨b, hb, h⟩ <;> simp only [exec, execLdMemVx, h]
  · exact ends_complete hwork rfl trivial
  · exact ends_abort (.freeStore hm (.inr (.inr (.inr (.inl ⟨x, rfl⟩))))) ⟨hb, .inr (.inr (.inl ⟨x, rfl⟩))⟩

theorem execLdVxMem_ends (x : Nibble) (s : State) : ∃ t, exec (.ldVxMem x) s = .next t ∧ Ends (.ldVxMem x) s t := by
  have hregs : ∀ k ∈ registersTo x, MayWrite (.ldVxMem x) (BitVec.ofNat 4 k) := fun k hk => by
    rw [MayWrite, toNat_ofNat_four (registersTo_lt hk)]
    exact mem_registersTo.1 hk
  rcases Work.loadRegisters hregs (.start (s := s)) (a := s.indexed 0) with ⟨t, h, hwork⟩ | ⟨b, hb, h⟩ <;>
    simp only [exec, execLdVxMem, h]
  · exact ends_complete hwork rfl trivial
  · exact ends_abort (.freeRegisters hregs (.inr (.inr (.inr (.inr ⟨x, rfl⟩))))) ⟨hb, .inr (.inr (.inr ⟨x, rfl⟩))⟩

/-- Every instruction answers a next state, and ends in one of the ways of `Ends`. -/
theorem exec_ends (i : Instr) (s : State) : ∃ t, exec i s = .next t ∧ Ends i s t := by
  cases i with
  | cls => exact ends_complete (.setFb .start (.inl rfl)) rfl trivial
  | ret =>
    by_cases hentry : 0 < s.sp.val
    · exact ⟨_, rfl, .completes .start rfl hentry⟩
    · refine ⟨_, exec_ret s, ?_⟩
      rw [State.exitSubroutine_empty _ hentry]
      exact .raises .start ⟨Nat.eq_zero_of_not_pos hentry, rfl⟩
  | call nnn =>
    by_cases hroom : s.sp.val < 16
    · exact ⟨_, rfl, .completes .start rfl hroom⟩
    · refine ⟨_, exec_call nnn s, ?_⟩
      rw [State.enterSubroutine_full _ _ hroom]
      exact .raises .start ⟨by omega, nnn, rfl⟩
  | jp _ | jpV0 _ | ldVxK _ => exact ends_complete .start rfl trivial
  | seImm _ _ | sneImm _ _ | seReg _ _ | sneReg _ _ => exact ends_complete .start ⟨_, rfl⟩ (skipIf_fits ..)
  | ldImm _ _ | addImm _ _ | orReg _ _ | andReg _ _ | xorReg _ _ | ldVxDt _ =>
    exact ends_complete (.setV .start rfl) rfl trivial
  | addReg _ _ => exact ends_complete (.setV (.setV .start (.inl rfl)) (.inr rfl)) rfl trivial
  | subReg _ _ | shr _ _ | subnReg _ _ | shl _ _ =>
    exact ends_complete (.writeFlagged (.inl rfl) (.inr rfl)) rfl trivial
  | ldI nnn => exact ends_complete (.setI .start (.inl ⟨nnn, rfl⟩)) rfl trivial
  | ldFVx x => exact ends_complete (.setI .start (.inr (.inr ⟨x, rfl⟩))) rfl trivial
  | ldDtVx x => exact ends_complete (.setDt .start ⟨x, rfl⟩) rfl trivial
  | ldStVx x => exact ends_complete (.setSt .start ⟨x, rfl⟩) rfl trivial
  | ldReg x y => exact execLdReg_ends x y s
  | rnd x kk => exact execRnd_ends x kk s
  | drw x y n => exact execDrw_ends x y n s
  | skp x => exact execSkp_ends x s
  | sknp x => exact execSknp_ends x s
  | addIVx x => exact execAddIVx_ends x s
  | ldBVx x => exact execLdBVx_ends x s
  | ldMemVx x => exact execLdMemVx_ends x s
  | ldVxMem x => exact execLdVxMem_ends x s

theorem next_unique {i : Instr} {s t u : State} (ht : exec i s = .next t) (hu : exec i s = .next u) : t = u :=
  Host.Outcome.next.inj (ht.symm.trans hu)

theorem ends_of_exec {i : Instr} {s t : State} (h : exec i s = .next t) : Ends i s t := by
  obtain ⟨u, hu, hends⟩ := exec_ends i s
  exact next_unique hu h ▸ hends

end Sys2Proof.Machine

/-! ## The whole-machine obligations -/

namespace Sys2Proof.Machine

/-! ### What an effect changes -/

/-- The fields that an effect or a fault may change, besides what the instruction's own work does. -/
def controlFields : List Field := [.pc, .stack, .sp, .mode, .fault]

theorem State.sameBut_applyEffect (s : State) (w : Word) (e : Effect) :
    s.SameBut (s.applyEffect w e) controlFields := by
  obtain ⟨pc, stack, sp, mode, fault, h⟩ := s.applyEffect_frame w e
  rw [h]
  exact State.sameBut_of_fields (by simp [controlFields])

/-- An effect that fits the stack raises nothing. -/
theorem State.applyEffect_fault (s : State) (w : Word) {e : Effect} (h : e.Fits s.sp) :
    (s.applyEffect w e).fault = s.fault := by
  cases e with
  | enterSubroutine a => rw [State.applyEffect_enter, State.enterSubroutine_room w a h]
  | exitSubroutine => rw [State.applyEffect_exit, State.exitSubroutine_entry w h]
  | noOp | advance | awaitKey _ | skipNext | jump _ => rfl

theorem State.applyEffect_sp (s : State) (w : Word) (e : Effect) :
    (s.applyEffect w e).sp = s.sp ∨ (∃ a, e = .enterSubroutine a) ∨ e = .exitSubroutine := by
  cases e with
  | enterSubroutine a => exact .inr (.inl ⟨a, rfl⟩)
  | exitSubroutine => exact .inr (.inr rfl)
  | noOp | advance | awaitKey _ | skipNext | jump _ => exact .inl rfl

theorem State.applyEffect_stack (s : State) (w : Word) (e : Effect) :
    (s.applyEffect w e).stack = s.stack ∨ ∃ a, e = .enterSubroutine a := by
  cases e with
  | enterSubroutine a => exact .inr ⟨a, rfl⟩
  | exitSubroutine =>
    by_cases h : 0 < s.sp.val
    · rw [State.applyEffect_exit, State.exitSubroutine_entry w h]; exact .inl rfl
    · rw [State.applyEffect_exit, State.exitSubroutine_empty w h]; exact .inl rfl
  | noOp | advance | awaitKey _ | skipNext | jump _ => exact .inl rfl

theorem call_of_hasEffect {s : State} {i : Instr} {a : Word} (h : HasEffect s i (.enterSubroutine a)) :
    ∃ nnn, i = .call nnn := by
  cases i with
  | call nnn => exact ⟨nnn, rfl⟩
  | seImm _ _ | sneImm _ _ | seReg _ _ | sneReg _ _ | skp _ | sknp _ => obtain ⟨c, hc⟩ := h; cases c <;> cases hc
  | _ => simp [HasEffect] at h

theorem ret_of_hasEffect {s : State} {i : Instr} (h : HasEffect s i .exitSubroutine) : i = .ret := by
  cases i with
  | ret => rfl
  | seImm _ _ | sneImm _ _ | seReg _ _ | sneReg _ _ | skp _ | sknp _ => obtain ⟨c, hc⟩ := h; cases c <;> cases hc
  | _ => simp [HasEffect] at h

/-! ### What an instruction changes -/

section
variable {i : Instr} {s t : State}

theorem Ends.params (h : Ends i s t) : t.params = s.params := by
  cases h with
  | @completes u e hwork _ _ => exact (u.sameBut_applyEffect _ e).1.trans hwork.frame.1
  | raises hwork _ => exact hwork.frame.1

/-- A field that the instruction's work does not write, and that is not the control flow's, stays. -/
theorem Ends.frame {f : Field} (h : Ends i s t) (hf : ¬ Writes i f) (hcontrol : f ∉ controlFields) : s.AgreeOn t f := by
  cases h with
  | @completes u e hwork _ _ => exact (hwork.frame.2 f hf).trans ((u.sameBut_applyEffect _ e).2 f hcontrol)
  | @raises u g hwork _ =>
    exact (hwork.frame.2 f hf).trans
      ((u.sameBut_raise _ g).2 f fun hmem => hcontrol (List.mem_singleton.1 hmem ▸ by decide))

theorem Ends.v (h : Ends i s t) {r : Nibble} (hr : ¬ MayWrite i r) : t.v r = s.v r := by
  cases h with
  | @completes u e hwork _ _ => exact ((u.sameBut_applyEffect _ e).2 .v (by decide) r).trans (hwork.v hr)
  | raises hwork _ => exact hwork.v hr

/-- A fault raised leaves PC, and names it, the word and a cause of the instruction's class; else none is raised. -/
theorem Ends.fault_cases (h : Ends i s t) :
    t.fault = s.fault ∨ ∃ f : Fault, f.RaisedBy i s ∧ t.fault = some ⟨f, s.pc, some (encode i)⟩ ∧ t.pc = s.pc := by
  cases h with
  | @completes u e hwork _ hfits => exact .inl ((u.applyEffect_fault _ (hwork.sp ▸ hfits)).trans hwork.fault)
  | @raises u f hwork hcause => exact .inr ⟨f, hcause, by rw [State.raise_fault, hwork.pc], hwork.pc⟩

theorem Ends.stack (h : Ends i s t) : t.stack = s.stack ∨ ∃ nnn, i = .call nnn := by
  cases h with
  | @completes u e hwork heffect _ =>
    rcases u.applyEffect_stack (encode i) e with hkept | ⟨a, rfl⟩
    · exact .inl (hkept.trans hwork.stack)
    · exact .inr (call_of_hasEffect heffect)
  | raises hwork _ => exact .inl hwork.stack

theorem Ends.sp (h : Ends i s t) : t.sp = s.sp ∨ (∃ nnn, i = .call nnn) ∨ i = .ret := by
  cases h with
  | @completes u e hwork heffect _ =>
    rcases u.applyEffect_sp (encode i) e with hkept | ⟨a, rfl⟩ | rfl
    · exact .inl (hkept.trans hwork.sp)
    · exact .inr (.inl (call_of_hasEffect heffect))
    · exact .inr (.inr (ret_of_hasEffect heffect))
  | raises hwork _ => exact .inl hwork.sp

/-- PC moves only when no fault is raised. -/
theorem Ends.pc_or_fault (h : Ends i s t) : t.pc = s.pc ∨ t.fault = s.fault :=
  h.fault_cases.symm.imp (fun ⟨_, _, _, hpc⟩ => hpc) id

end

/-! ### The obligations -/

theorem runningStep_next (s : State) : ∃ t, runningStep s = .next t := by
  rcases runningStep_cases s with ⟨f, -, h⟩ | ⟨w, -, -, h⟩ | ⟨w, i, -, -, h⟩ <;> rw [h]
  · exact ⟨_, rfl⟩
  · exact ⟨_, rfl⟩
  · exact (exec_ends i s).imp fun _ => And.left

theorem step_next (s : State) : ∃ t, step s = .next t := by
  rcases step_cases s with ⟨-, h⟩ | ⟨_, -, -, h⟩ | ⟨-, -, h⟩ | ⟨_, _, -, -, -, h⟩ <;> rw [h]
  · exact ⟨s, rfl⟩
  · exact ⟨s, rfl⟩
  · exact runningStep_next _
  · exact runningStep_next _

/-- Settles O11: every instruction ends in a next state by `exec_ends`, and a step is at most one instruction. -/
theorem everyStepAnswersNext : Obligations.EveryStepAnswersNext :=
  ⟨fun i s => (exec_ends i s).imp fun _ => And.left, step_next⟩

/-- Settles O23: a field changes by the instruction's work, which `Writes` lists, by its effect or by its fault. -/
theorem eachFieldHasItsWriters : Obligations.EachFieldHasItsWriters := by
  intro i s t h
  have ends := ends_of_exec h
  have written (f : Field) (hcontrol : f ∉ controlFields) (hne : ¬ s.AgreeOn t f) : Writes i f :=
    not_not.1 fun hf => hne (ends.frame hf hcontrol)
  have mode (hne : t.mode ≠ s.mode) : ∃ x, i = .ldVxK x :=
    not_forall_not.1 fun hi => hne (exec_mode hi h)
  have fault (hne : t.fault ≠ s.fault) : ∃ f : FaultRecord, t.fault = some f ∧ f.cause.RaisedBy i s := by
    obtain ⟨f, hcause, hfault, -⟩ := ends.fault_cases.resolve_left hne
    exact ⟨_, hfault, hcause⟩
  exact ⟨written .dt (by decide), written .st (by decide), written .i (by decide), ends.stack.resolve_left,
    ends.sp.resolve_left, written .fb (by decide), mode, fun a hne => written .m (by decide) fun hm => hne (hm a),
    ends.pc_or_fault.resolve_left, fault, fun hne => written .free (by decide) (not_and_or.2 hne),
    ends.frame (f := .keys) id (by decide), ends.params⟩

/-- Settles O24: a register that no write of the instruction's work names keeps its value, by `Ends.v`. -/
theorem registersChangeOnlyAsDestinations : Obligations.RegistersChangeOnlyAsDestinations :=
  fun _ _ _ _ h hne => not_not.1 fun hr => hne ((ends_of_exec h).v hr)

/-- Settles O25: a machine with no fault that then has one got it from the fault of `Ends.fault_cases`. -/
theorem faultNamesItsInstruction : Obligations.FaultNamesItsInstruction := by
  intro i s t f hnone h hf
  rcases (ends_of_exec h).fault_cases with hkept | ⟨cause, hcause, hfault, hpc⟩
  · rw [hkept, hnone] at hf
    cases hf
  · rw [hfault] at hf
    cases hf
    exact ⟨rfl, rfl, hpc, hcause⟩

/-- The one effect of an instruction that always continues (40_fetch_execute.md R64). -/
theorem advance_of_alwaysContinues {s : State} {i : Instr} {e : Effect} (hi : AlwaysContinues s.params i)
    (h : HasEffect s i e) : e = .advance := by
  cases i with
  | ldReg x y => exact h.resolve_right fun ⟨habsent, _⟩ => Bool.false_ne_true (habsent.symm.trans hi)
  | ret | jp _ | call _ | seImm _ _ | sneImm _ _ | seReg _ _ | sneReg _ _ | jpV0 _ | skp _ | sknp _ | ldVxK _ =>
    exact hi.elim
  | _ => exact h

/-- Settles O26: an instruction that always continues ends with the advance of `Ends.completes`, and a skip instruction
whose condition fails with that of `exec_of_skipCondition`. -/
theorem continueAdvancesOneWord : Obligations.ContinueAdvancesOneWord := by
  refine ⟨fun i s t hi hnone h hfault => ?_, fun i s hskip => ?_⟩
  · cases ends_of_exec h with
    | @completes u e hwork heffect _ =>
      rw [advance_of_alwaysContinues hi heffect, State.applyEffect_advance, hwork.pc]
    | raises => cases hfault
  · rw [exec_of_skipCondition hskip, State.complete, skipIf_false, State.applyEffect_advance]

/-! ### The step (40_fetch_execute.md R60 to R71) -/

theorem decodeWord_of_decode {hi lo : Byte} {i : Instr} {rest : List Byte} (h : decode [hi, lo] = .ok (i, rest)) :
    decodeWord (wordOfBytes hi lo) = some i := by
  rw [decode] at h
  split at h
  · cases h; assumption
  · cases h

/-- Settles O6: the fetch is that of `State.fetch_ok`, and its word is the one that decodes. -/
theorem stepRunsDecodedInstruction : Obligations.StepRunsDecodedInstruction := by
  intro s i hfault hmode hpc hdecode
  rw [step_running hfault hmode, runningStep_ok (s.fetch_ok hpc), executeWord, decodeWord_of_decode hdecode]

section
variable {s : State} (w : Word)

theorem State.unmatched_stall (h : s.params.unmatchedPolicy = .stall) : s.unmatched w = s := by
  rw [State.unmatched, h, State.applyEffect_noOp]

theorem State.unmatched_advance (h : s.params.unmatchedPolicy = .advance) :
    s.unmatched w = { s with pc := s.pc + 2 } := by
  rw [State.unmatched, h, State.applyEffect_advance]

theorem State.unmatched_fault (h : s.params.unmatchedPolicy = .fault) :
    s.unmatched w = s.raise (some w) .illegalOpcode := by
  rw [State.unmatched, h]

end

/-- Settles O8: the step of an unmatched word is `State.unmatched`, which has one equation per policy. -/
theorem unmatchedWordFollowsPolicy : Obligations.UnmatchedWordFollowsPolicy := by
  intro s w hfault hmode hfetch hdecode
  have hstep : step s = .next (s.unmatched w) := by
    rw [step_running hfault hmode, runningStep_ok hfetch, executeWord, hdecode]
  refine ⟨fun hp => ?_, fun hp => ⟨_, hstep, ?_⟩, fun hp => ⟨_, hstep, ?_⟩⟩
  · rw [hstep, s.unmatched_stall w hp]
  · rw [s.unmatched_advance w hp]
    exact ⟨rfl, s.sameBut_setPc _⟩
  · rw [s.unmatched_fault w hp]
    exact ⟨s.haltedBy_raise _ _, s.sameBut_raise _ _⟩

/-- The waiting machine `s` once key `k` has gone to register `r` and the wait is over (40_fetch_execute.md R70). -/
def State.resumed (s : State) (r k : Nibble) : State := { s.setV r (k.setWidth 8) with mode := .running }

theorem State.resumed_v (s : State) (r k q : Nibble) :
    (s.resumed r k).v q = if q = r then k.setWidth 8 else s.v q := s.v_setV r q _

/-- Settles O9: the scan finds the lowest key held, and the step then is the Running step of `State.resumed`. -/
theorem waitStepPollsThenRuns : Obligations.WaitStepPollsThenRuns := by
  intro s r hfault hmode
  refine ⟨fun hup => ?_, fun k hdown hlow => ⟨s.resumed r k, ?_, fun q hq => ?_, rfl, ?_, ?_⟩⟩
  · rw [step_awaiting hfault hmode, awaitingStep, s.firstPressed_eq_none_iff.2 hup]
  · rw [State.resumed_v, if_pos rfl, BitVec.ofNat_toNat]
  · rw [State.resumed_v, if_neg hq]
  · exact State.sameBut_of_fields (by simp [State.resumed])
  · have hfirst := (s.firstPressed_eq_some_iff k).2 ⟨hdown, hlow⟩
    have hresumed : (s.resumed r k).fault = none := hfault
    rw [step_awaiting hfault hmode, step_running hresumed rfl, awaitingStep, hfirst]
    rfl

/-- A Running step changes the timers only by their instructions. -/
theorem runningStep_timers {s t : State} (h : runningStep s = .next t) :
    (t.dt ≠ s.dt → ∃ w x, s.fetch = .ok w ∧ decodeWord w = some (.ldDtVx x)) ∧
    (t.st ≠ s.st → ∃ w x, s.fetch = .ok w ∧ decodeWord w = some (.ldStVx x)) := by
  rcases runningStep_cases s with ⟨f, -, hstep⟩ | ⟨w, -, -, hstep⟩ | ⟨w, i, hfetch, hdecode, hstep⟩ <;> rw [hstep] at h
  · cases h
    exact ⟨absurd rfl, absurd rfl⟩
  · cases h
    rcases s.unmatched_cases w with ⟨-, hw⟩ | ⟨-, hw⟩ | ⟨-, hw⟩ <;> rw [hw] <;> exact ⟨absurd rfl, absurd rfl⟩
  · obtain ⟨hdt, hst, -⟩ := eachFieldHasItsWriters i s t h
    refine ⟨fun hne => ?_, fun hne => ?_⟩
    · obtain ⟨x, rfl⟩ := hdt hne
      exact ⟨w, x, hfetch, hdecode⟩
    · obtain ⟨x, rfl⟩ := hst hne
      exact ⟨w, x, hfetch, hdecode⟩

/-- Settles O55: a step that does not run an instruction keeps the timers, and one that does is a Running step, of a
state with the same timers and the same fetch. -/
theorem stepsDoNotTickTheTimers : Obligations.StepsDoNotTickTheTimers := by
  intro s t h
  rcases step_cases s with ⟨-, hstep⟩ | ⟨_, -, -, hstep⟩ | ⟨-, -, hstep⟩ | ⟨r, k, -, -, -, hstep⟩ <;> rw [hstep] at h
  · cases h
    exact ⟨absurd rfl, absurd rfl⟩
  · cases h
    exact ⟨absurd rfl, absurd rfl⟩
  · exact runningStep_timers h
  · exact runningStep_timers (s := s.resumed r k) h

end Sys2Proof.Machine

/-! ## The invariant and the host interface -/

namespace Sys2Proof.Machine

/-! ### The invariant, update by update -/

/-- The targets of an effect lie in the range of PC and of a return address (40_fetch_execute.md R72). -/
def Effect.InRange : Effect → Prop
  | .jump a | .enterSubroutine a => a.toNat ≤ 0x10FE
  | .noOp | .advance | .awaitKey _ | .skipNext | .exitSubroutine => True

theorem toNat_offsetTarget (nnn : Addr) (v0 : Byte) : (offsetTarget nnn v0).toNat = nnn.toNat + v0.toNat := by
  have := nnn.isLt
  have := v0.isLt
  rw [offsetTarget, BitVec.toNat_ofNat, Nat.mod_eq_of_lt (by omega)]

theorem inRange_of_hasEffect {s : State} {i : Instr} {e : Effect} (h : HasEffect s i e) : e.InRange := by
  cases i with
  | jp nnn | call nnn =>
    cases h
    have := nnn.isLt
    rw [Effect.InRange, toNat_zextAddr]
    omega
  | jpV0 nnn =>
    cases h
    have := nnn.isLt
    have := (s.v 0).isLt
    rw [Effect.InRange, toNat_offsetTarget]
    omega
  | seImm _ _ | sneImm _ _ | seReg _ _ | sneReg _ _ | skp _ | sknp _ => obtain ⟨c, rfl⟩ := h; cases c <;> trivial
  | ldReg _ _ => rcases h with rfl | ⟨-, rfl⟩ <;> trivial
  | _ => cases h; trivial

section
variable {s : State}

theorem State.Inv.raise (h : s.Inv) (o : Option Word) (f : Fault) : (s.raise o f).Inv where
  memory := h.memory
  pcBound := h.pcBound
  returns := h.returns
  faultPc := fun _ hf => by cases hf; rfl

theorem State.Inv.setPc (h : s.Inv) (hfault : s.fault = none) {pc : Word} (hpc : pc.toNat ≤ 0x10FE) :
    ({ s with pc := pc } : State).Inv where
  memory := h.memory
  pcBound := hpc
  returns := h.returns
  faultPc := fun _ hf => nomatch hfault.symm.trans hf

/-- What the invariant does not speak of may change. -/
theorem State.Inv.of_eq {t : State} (h : s.Inv) (hmem : t.MemWf) (hpc : t.pc = s.pc) (hstack : t.stack = s.stack)
    (hfault : t.fault = s.fault) : t.Inv where
  memory := hmem
  pcBound := hpc ▸ h.pcBound
  returns := hstack ▸ h.returns
  faultPc := by rw [hfault, hpc]; exact h.faultPc

theorem Work.inv {i : Instr} {u : State} (hwork : Work i s u) (h : s.Inv) : u.Inv :=
  h.of_eq (hwork.memWf h.memory) hwork.pc hwork.stack hwork.fault

/-- PC after an instruction fetched inside memory, and after its skip. -/
theorem toNat_pc_add (h : s.pc.toNat + 1 < memSize) :
    (s.pc + 2).toNat ≤ 4096 ∧ (s.pc + 4).toNat ≤ 0x10FE := by
  rw [memSize] at h
  rw [BitVec.toNat_add, BitVec.toNat_add, show (2 : Word).toNat = 2 from rfl, show (4 : Word).toNat = 4 from rfl]
  omega

/-- A push of a return address in range. -/
theorem returns_push (h : s.Inv) {ret : Word} (hret : ret.toNat ≤ 4096) (hroom : s.sp.val < 16) (k : Fin 16) :
    ((s.stack.set s.sp.val ret hroom).get k).toNat ≤ 4096 := by
  rw [Vector.get_eq_getElem, Vector.getElem_set]
  split
  · exact hret
  · exact h.returns k

/-- An effect in range, of an instruction fetched inside memory, keeps the invariant. -/
theorem State.Inv.applyEffect (h : s.Inv) (hfault : s.fault = none) (hfetch : s.pc.toNat + 1 < memSize) (w : Word)
    {e : Effect} (hrange : e.InRange) : (s.applyEffect w e).Inv := by
  obtain ⟨hnext, hskip⟩ := toNat_pc_add hfetch
  have hadvance := h.setPc hfault (hnext.trans (by decide))
  cases e with
  | noOp => exact h
  | advance => exact hadvance
  | awaitKey r => exact hadvance.of_eq h.memory rfl rfl rfl
  | skipNext => exact h.setPc hfault hskip
  | jump a => exact h.setPc hfault hrange
  | enterSubroutine a =>
    by_cases hroom : s.sp.val < 16
    · rw [State.applyEffect_enter, State.enterSubroutine_room w a hroom]
      exact { h.setPc hfault hrange with returns := returns_push h hnext hroom }
    · rw [State.applyEffect_enter, State.enterSubroutine_full w a hroom]
      exact h.raise _ _
  | exitSubroutine =>
    by_cases hentry : 0 < s.sp.val
    · rw [State.applyEffect_exit, State.exitSubroutine_entry w hentry]
      have hret := h.returns ⟨s.sp.val - 1, by omega⟩
      exact (h.setPc hfault (hret.trans (by decide))).of_eq h.memory rfl rfl rfl
    · rw [State.applyEffect_exit, State.exitSubroutine_empty w hentry]
      exact h.raise _ _

/-! ### The invariant, step by step -/

theorem inv_of_exec {i : Instr} {t : State} (h : s.Inv) (hfault : s.fault = none) (hfetch : s.pc.toNat + 1 < memSize)
    (hexec : exec i s = .next t) : t.Inv := by
  cases ends_of_exec hexec with
  | completes hwork heffect _ =>
    exact (hwork.inv h).applyEffect (hwork.fault.trans hfault) (hwork.pc ▸ hfetch) _ (inRange_of_hasEffect heffect)
  | raises hwork _ => exact (hwork.inv h).raise _ _

theorem inv_of_runningStep {t : State} (h : s.Inv) (hfault : s.fault = none) (hstep : runningStep s = .next t) :
    t.Inv := by
  rcases runningStep_cases s with ⟨f, -, hs⟩ | ⟨w, hfetch, -, hs⟩ | ⟨w, i, hfetch, -, hs⟩ <;> rw [hs] at hstep
  · cases hstep
    exact h.raise _ _
  · cases hstep
    rcases s.unmatched_cases w with ⟨-, hw⟩ | ⟨-, hw⟩ | ⟨-, hw⟩ <;> rw [hw]
    · exact h
    · exact h.applyEffect hfault (State.fetch_bound hfetch) w (e := .advance) trivial
    · exact h.raise _ _
  · exact inv_of_exec h hfault (State.fetch_bound hfetch) hstep

end

/-- Settles O13: a step that changes the machine is a Running step, of the machine itself or of `State.resumed`. -/
theorem stepKeepsInvariant : Obligations.StepKeepsInvariant := by
  intro s t h hstep
  rcases step_cases s with ⟨-, hs⟩ | ⟨_, -, -, hs⟩ | ⟨hfault, -, hs⟩ | ⟨r, k, hfault, -, -, hs⟩ <;> rw [hs] at hstep
  · cases hstep
    exact h
  · cases hstep
    exact h
  · exact inv_of_runningStep h hfault hstep
  · have hresumed : (s.resumed r k).Inv := h.of_eq h.memory rfl rfl rfl
    exact inv_of_runningStep hresumed hfault hstep

/-! ### The invariant along the host's calls -/

theorem State.inv_construct (p : Params) : (State.construct p).Inv where
  memory := State.memWf_construct p
  pcBound := by simp [State.construct]
  returns := fun k => by simp [State.construct, Vector.get_eq_getElem]
  faultPc := nofun

/-- Settles O12: a constructed machine's fields are constants, whatever its parameters. -/
theorem resetStateMeetsInvariant : Obligations.ResetStateMeetsInvariant :=
  ⟨State.inv_construct, State.inv_construct _⟩

theorem State.inv_delayTick {s : State} (h : s.Inv) : s.delayTick.Inv := by
  unfold State.delayTick
  split
  · exact h
  · exact h.of_eq h.memory rfl rfl rfl

theorem inv_of_burst : ∀ {n : Nat} {s t : State}, s.Inv → burst n s = .next t → t.Inv
  | 0, _, _, h, hburst => by cases hburst; exact h
  | n + 1, s, t, h, hburst => by
    cases hfault : s.fault with
    | some f =>
      simp only [burst, hfault] at hburst
      cases hburst
      exact h
    | none =>
      obtain ⟨u, hstep⟩ := step_next s
      simp only [burst, hfault, hstep] at hburst
      exact inv_of_burst (stepKeepsInvariant s u h hstep) hburst

theorem inv_of_frame {s t : State} (h : s.Inv) (hframe : frame s = .next t) : t.Inv := by
  cases hfault : s.fault with
  | some f =>
    simp only [frame, hfault] at hframe
    cases hframe
    exact h
  | none =>
    simp only [frame, hfault] at hframe
    exact inv_of_burst (State.inv_delayTick h) hframe

theorem State.inv_load {s : State} (h : s.Inv) (image : List Byte) : (s.load image).Inv := by
  obtain ⟨t, hload, hmem, -, hwf⟩ := State.loadFrom_spec image s progBase
  rw [State.load, hload]
  exact h.of_eq (hwf h.memory).1 (by rw [hmem]) (by rw [hmem]) (by rw [hmem])

/-- A key call sets one key, or is refused. -/
theorem key_call_next {c : Command} {key : Nat} {down : Bool} {s t : State}
    (hc : c = .press key ∧ down = true ∨ c = .release key ∧ down = false) (h : perform c s = .next t) :
    t = s.setKey (BitVec.ofNat 4 key) down := by
  rcases hc with ⟨rfl, rfl⟩ | ⟨rfl, rfl⟩ <;>
  · rw [perform] at h
    split at h
    · cases h; rfl
    · cases h

/-- Settles O14: each command is a step, steps, or a change that `State.Inv.of_eq` covers. -/
theorem commandsKeepInvariant : Obligations.CommandsKeepInvariant := by
  intro c s t h hc
  cases c with
  | reset => cases hc; exact (State.inv_construct s.params).of_eq (State.memWf_construct _) rfl rfl rfl
  | load image => cases hc; exact State.inv_load h image
  | step => exact stepKeepsInvariant s t h hc
  | frame => exact inv_of_frame h hc
  | press key => rw [key_call_next (.inl ⟨rfl, rfl⟩) hc]; exact h.of_eq h.memory rfl rfl rfl
  | release key => rw [key_call_next (.inr ⟨rfl, rfl⟩) hc]; exact h.of_eq h.memory rfl rfl rfl
  | releaseAll => cases hc; exact h.of_eq h.memory rfl rfl rfl

theorem inv_of_runHistory : ∀ {calls : History} {s t : State}, s.Inv → runHistory calls s = .next t → t.Inv
  | [], _, _, h, hrun => by cases hrun; exact h
  | c :: rest, s, t, h, hrun => by
    obtain ⟨hnil, -⟩ | ⟨_, _, u, hcalls, hperform, hrest⟩ := runHistory_next hrun
    · cases hnil
    · cases hcalls
      exact inv_of_runHistory (commandsKeepInvariant c s u h hperform) hrest

/-- Settles O57: `commandsKeepInvariant`, call by call. -/
theorem historiesKeepInvariant : Obligations.HistoriesKeepInvariant :=
  ⟨fun _ _ _ => inv_of_runHistory, fun _ p _ => inv_of_runHistory (State.inv_construct p)⟩

/-! ### Steps, runs and frames (40_fetch_execute.md R73) -/

theorem run_succ {n : Nat} {s t : State} (h : step s = .next t) : core.run (n + 1) s = core.run n t := by
  have hcore : core.step s = .next t := h
  simp only [Host.Core.run, hcore]

theorem run_halted {s : State} {f : FaultRecord} (h : s.fault = some f) : ∀ n, core.run n s = .next s
  | 0 => rfl
  | n + 1 => (run_succ (step_halted h)).trans (run_halted h n)

/-- A burst is a run: that a fault ends it follows, since a halted machine's step changes nothing. -/
theorem burst_eq_run : ∀ (n : Nat) (s : State), burst n s = core.run n s
  | 0, _ => rfl
  | n + 1, s => by
    cases hfault : s.fault with
    | some f =>
      have hburst : burst (n + 1) s = .next s := by simp only [burst, hfault]
      exact hburst.trans (run_halted hfault _).symm
    | none =>
      obtain ⟨t, hstep⟩ := step_next s
      have hburst : burst (n + 1) s = burst n t := by simp only [burst, hfault, hstep]
      exact (hburst.trans (burst_eq_run n t)).trans (run_succ hstep).symm

theorem State.delayTick_eq (s : State) : s.delayTick = { s with dt := BitVec.ofNat 8 (s.dt.toNat - 1) } := by
  unfold State.delayTick
  split
  case isTrue h => rw [h]; cases s; cases h; rfl
  case isFalse h =>
    have hpos : 1 ≤ s.dt.toNat := Nat.one_le_iff_ne_zero.2 fun h0 => h (BitVec.eq_of_toNat_eq h0)
    congr 1
    exact BitVec.eq_of_toNat_eq (by rw [BitVec.toNat_ofNat]; have := s.dt.isLt; bv_omega)

/-- Settles O20: the tick is `State.delayTick_eq`, and the burst after it a run of eight steps. -/
theorem frameTicksThenRunsEightSteps : Obligations.FrameTicksThenRunsEightSteps := by
  intro s hfault
  have hframe : perform .frame s = burst stepsPerFrame s.delayTick := by simp only [perform, frame, hfault]
  rw [hframe, State.delayTick_eq]
  exact burst_eq_run 8 _

theorem run_eq_history (n : Nat) (s : State) : core.run n s = runHistory (List.replicate n .step) s := by
  induction n generalizing s with
  | zero => rfl
  | succ n ih =>
    obtain ⟨t, hstep⟩ := step_next s
    rw [run_succ hstep, ih, List.replicate_succ, runHistory_cons (c := .step) _ hstep]

/-- The history of one call is the call. -/
theorem runHistory_singleton (c : Command) (s : State) : runHistory [c] s = perform c s := by
  cases h : perform c s with
  | next t => rw [runHistory_cons [] h, runHistory_nil]
  | fault f => simp only [runHistory, h]
  | refused r => rw [runHistory_cons_refused [] h]

/-- Settles O58: a run is a history of steps by `run_eq_history`, and a frame is a run after its tick. -/
theorem stepsOfTheCoreAreAHistory : Obligations.StepsOfTheCoreAreAHistory :=
  ⟨run_eq_history, fun s hfault => by
    rw [runHistory_singleton, frameTicksThenRunsEightSteps s hfault, run_eq_history]⟩

/-! ### Histories of host calls (70_reset_and_hazards.md R145, R148) -/

theorem burst_next (n : Nat) (s : State) : ∃ t, burst n s = .next t := by
  induction n generalizing s with
  | zero => exact ⟨s, rfl⟩
  | succ n ih =>
    obtain ⟨u, hstep⟩ := step_next s
    rw [burst_eq_run, run_succ hstep, ← burst_eq_run]
    exact ih u

theorem perform_legal {c : Command} (h : c.legal = true) (s : State) : ∃ t, perform c s = .next t := by
  cases c with
  | step => exact step_next s
  | frame =>
    cases hfault : s.fault with
    | some f => exact ⟨s, by simp only [perform, frame, hfault]⟩
    | none =>
      simp only [perform, frame, hfault]
      exact burst_next _ _
  | press key | release key =>
    have hkey : key < 16 := of_decide_eq_true h
    exact ⟨_, by rw [perform, if_pos hkey]⟩
  | reset | load _ | releaseAll => exact ⟨_, rfl⟩

theorem runHistory_legal : ∀ (calls : History) (s : State), (∀ c ∈ calls, c.legal = true) →
    ∃ t, runHistory calls s = .next t
  | [], s, _ => ⟨s, rfl⟩
  | c :: rest, s, h => by
    obtain ⟨hc, hrest⟩ := List.forall_mem_cons.1 h
    obtain ⟨u, hu⟩ := perform_legal hc s
    rw [runHistory_cons rest hu]
    exact runHistory_legal rest u hrest

/-- Settles O56: legal calls run to their end, and the first illegal one is refused there. -/
theorem everyInterleavingIsALegalHistory : Obligations.EveryInterleavingIsALegalHistory := by
  refine ⟨runHistory_legal, fun before rest c s hbefore hc => ?_⟩
  obtain ⟨t, ht⟩ := runHistory_legal before s hbefore
  obtain ⟨r, hr⟩ := perform_illegal hc t
  exact ⟨r, by rw [runHistory_append before _ ht, runHistory_cons_refused rest hr]⟩

/-- Two sets of keys that read alike are one. -/
theorem keys_ext {s t : State} (h : ∀ k : Nibble, t.keyDown k = s.keyDown k) : t.keys = s.keys :=
  Vector.ext fun k hk => by
    have hread := h (BitVec.ofNat 4 k)
    simpa only [State.keyDown, toNat_ofNat_four hk] using hread

/-- A load or a key call changes memory and the keys, and memory only if it is a load. -/
theorem perform_between_steps {c : Command} {s t : State} (hc : c ≠ .step ∧ c ≠ .frame ∧ c ≠ .reset)
    (h : perform c s = .next t) :
    t = { s with mem := t.mem, keys := t.keys } ∧ ((∀ image, .load image ≠ c) → t.mem = s.mem) := by
  cases c with
  | step => exact absurd rfl hc.1
  | frame => exact absurd rfl hc.2.1
  | reset => exact absurd rfl hc.2.2
  | load image =>
    cases h
    obtain ⟨t, hload, hmem, -⟩ := State.loadFrom_spec image s progBase
    rw [State.load, hload]
    exact ⟨by rw [hmem], fun hload => absurd rfl (hload image)⟩
  | press key => rw [key_call_next (.inl ⟨rfl, rfl⟩) h]; exact ⟨rfl, fun _ => rfl⟩
  | release key => rw [key_call_next (.inr ⟨rfl, rfl⟩) h]; exact ⟨rfl, fun _ => rfl⟩
  | releaseAll => cases h; exact ⟨rfl, fun _ => rfl⟩

theorem runHistory_between_steps : ∀ {calls : History} {s t : State},
    (∀ c ∈ calls, c ≠ .step ∧ c ≠ .frame ∧ c ≠ .reset) → runHistory calls s = .next t →
    t = { s with mem := t.mem, keys := t.keys } ∧ ((∀ image, .load image ∉ calls) → t.mem = s.mem)
  | [], s, t, _, h => by cases h; exact ⟨rfl, fun _ => rfl⟩
  | c :: rest, s, t, hcalls, h => by
    obtain ⟨hc, hrest⟩ := List.forall_mem_cons.1 hcalls
    obtain ⟨hnil, -⟩ | ⟨_, _, u, hcons, hperform, hrun⟩ := runHistory_next h
    · cases hnil
    · cases hcons
      obtain ⟨hu, humem⟩ := perform_between_steps hc hperform
      obtain ⟨ht, htmem⟩ := runHistory_between_steps hrest hrun
      refine ⟨by rw [ht, hu], fun hload => ?_⟩
      exact (htmem fun image hmem => hload image (List.mem_cons_of_mem _ hmem)).trans
        (humem fun image hne => hload image (hne ▸ List.mem_cons_self))

/-- A press and the release of a key that is up leave the machine as it was. -/
theorem setKey_setKey_up {s : State} {k : Nibble} (h : s.keyDown k = false) : (s.setKey k true).setKey k false = s := by
  have hkeys : ((s.setKey k true).setKey k false).keys = s.keys := keys_ext fun j => by
    by_cases hj : j = k
    · rw [State.keyDown_setKey, if_pos hj, hj, h]
    · rw [State.keyDown_setKey, if_neg hj, State.keyDown_setKey, if_neg hj]
  calc (s.setKey k true).setKey k false
    _ = { s with keys := ((s.setKey k true).setKey k false).keys } := rfl
    _ = s := by rw [hkeys]

/-- Settles O59: between steps only memory and the keys change, the keys are what their levels are, and a press and a
release of a key that is up cancel. -/
theorem callsBetweenStepsTouchMemoryAndKeysOnly : Obligations.CallsBetweenStepsTouchMemoryAndKeysOnly := by
  refine ⟨fun calls s t hcalls h => ?_, fun k rest s hup => ?_⟩
  · obtain ⟨ht, hmem⟩ := runHistory_between_steps hcalls h
    refine ⟨ht ▸ State.sameBut_of_fields (by simp), fun hload hkeys => ?_⟩
    rw [ht, hmem hload, keys_ext hkeys]
  · rw [runHistory_cons _ (perform_press s k), runHistory_cons _ (perform_release _ k), setKey_setKey_up hup]

/-! ### Single calls -/

/-- Settles O10: Step and Frame look at the fault first, the other calls but Reset do not touch it. -/
theorem haltedMachineStaysUntilReset : Obligations.HaltedMachineStaysUntilReset := by
  intro s f hfault
  have hload (image : List Byte) : (s.load image).fault = some f := by
    obtain ⟨t, ht, hmem, -⟩ := State.loadFrom_spec image s progBase
    rw [State.load, ht, hmem]
    exact hfault
  have hset (k : Nat) (down : Bool) :
      (s.setKey (BitVec.ofNat 4 k) down).fault = some f ∧
        (s.setKey (BitVec.ofNat 4 k) down).keyDown (BitVec.ofNat 4 k) = down :=
    ⟨hfault, by rw [State.keyDown_setKey, if_pos rfl]⟩
  exact ⟨step_halted hfault, by simp only [perform, frame, hfault], by simp only [State.result, hfault],
    fun image => ⟨_, rfl, hload image⟩, fun k hk => ⟨_, if_pos hk, hset k true⟩,
    fun k hk => ⟨_, if_pos hk, hset k false⟩,
    ⟨_, rfl, hfault, s.keyDown_releaseAll⟩, ⟨_, rfl, rfl⟩⟩

/-- The fields of a constructed machine, whatever its random input and its count of free values. -/
theorem State.construct_fields (p : Params) (rand : Option Draw) (draws : Nat) {t : State}
    (ht : t = { State.construct p with rand := rand, draws := draws }) :
    (∀ a : Nat, t.byteAt a = if h : a < 80 then p.font[a] else 0#8) ∧
    (∀ r : Nibble, t.v r = 0#8) ∧ t.i = 0#16 ∧ t.pc = 0x200#16 ∧ t.dt = 0#8 ∧ t.st = 0#8 ∧
    (∀ k : Fin 16, t.stack.get k = 0#16) ∧ t.sp.val = 0 ∧
    (∀ (x : Fin 64) (y : Fin 32), pixel t.fb x y = false) ∧
    (∀ k : Nibble, t.keyDown k = false) ∧ t.mode = .running ∧ t.fault = none ∧ t.params = p := by
  subst ht
  exact ⟨fun _ => rfl, fun r => Vector.getElem_replicate .., rfl, rfl, rfl, rfl, fun k => Vector.getElem_replicate ..,
    rfl, pixel_clear, fun k => Vector.getElem_replicate .., rfl, rfl, rfl⟩

/-- Settles O15: both machines are the constructed one, the random input and the count of free values apart. -/
theorem resetRestoresEveryField : Obligations.ResetRestoresEveryField := by
  rintro s t (h | rfl)
  · cases h
    exact State.construct_fields s.params s.rand s.draws rfl
  · exact State.construct_fields s.params none 0 rfl

/-- Settles O18: the calls check their index first. -/
theorem hostIndexOutOfRangeRefused : Obligations.HostIndexOutOfRangeRefused := fun _ _ =>
  ⟨fun hk => ⟨if_neg (Nat.not_lt.2 hk), if_neg (Nat.not_lt.2 hk), if_neg (Nat.not_lt.2 hk)⟩, fun hk => if_pos hk⟩

/-- The export is the rows of the framebuffer, one after the other. -/
theorem State.framebuffer_eq_flatten (s : State) : s.framebuffer = s.fb.flatten.toList := by
  simp only [State.framebuffer, Vector.flatten, List.flatMap, Vector.toList, Array.toList_flatten, Array.toList_map,
    List.map_map]
  rfl

/-- Settles O19: place `y * 64 + x` of rows of 64 is column `x` of row `y`. -/
theorem framebufferExportIsRowMajor : Obligations.FramebufferExportIsRowMajor := by
  intro s
  rw [State.framebuffer_eq_flatten]
  refine ⟨Vector.length_toList, fun x y => ?_⟩
  have hplace : y.val * 64 + x.val < 32 * 64 := by omega
  have hrow : (y.val * 64 + x.val) / 64 = y.val := by omega
  have hcolumn : (y.val * 64 + x.val) % 64 = x.val := by omega
  rw [Vector.getElem?_toList, Vector.getElem?_eq_getElem hplace, Vector.getElem_flatten]
  simp only [hrow, hcolumn]
  rfl

end Sys2Proof.Machine

/-! ## The obligations of the instructions -/

namespace Sys2Proof.Machine

/-! ### Control flow (41_control_flow.md) -/

theorem exec_jump {i : Instr} {s : State} {a : Word} (h : exec i s = s.complete i (.jump a)) {n : Nat}
    (ha : a.toNat = n) : ∃ t, exec i s = .next t ∧ t.pc.toNat = n ∧ s.SameBut t [.pc] :=
  ⟨_, h, ha, s.sameBut_setPc a⟩

/-- Settles O28: both are the jump effect, with the targets of `toNat_zextAddr` and `toNat_offsetTarget`. -/
theorem jumpsGoToTheirTargets : Obligations.JumpsGoToTheirTargets := fun nnn s =>
  ⟨exec_jump rfl (toNat_zextAddr nnn), exec_jump rfl (toNat_offsetTarget nnn (s.v 0))⟩

/-- A skip instruction whose condition decides `p`. -/
theorem exec_of_skipCondition_decide {i : Instr} {s : State} {p : Prop} [Decidable p]
    (h : s.skipCondition i = some (decide p)) : exec i s = .next { s with pc := if p then s.pc + 4 else s.pc + 2 } := by
  rw [exec_of_skipCondition h, State.complete, State.applyEffect_skipIf]
  simp only [decide_eq_true_eq]

/-- A skip instruction whose condition decides that `p` does not hold. -/
theorem exec_of_skipCondition_decide_not {i : Instr} {s : State} {p : Prop} [Decidable p]
    (h : s.skipCondition i = some (decide (¬ p))) :
    exec i s = .next { s with pc := if p then s.pc + 2 else s.pc + 4 } := by
  rw [exec_of_skipCondition_decide h]
  simp only [ite_not]

/-- Settles O29: the skip effect of each instruction's condition. -/
theorem compareSkipsMoveByFourOrTwo : Obligations.CompareSkipsMoveByFourOrTwo := fun _ _ _ _ =>
  ⟨exec_of_skipCondition_decide rfl, exec_of_skipCondition_decide_not rfl, exec_of_skipCondition_decide rfl,
    exec_of_skipCondition_decide_not rfl⟩

/-- Settles O32: the return pops the entry that the call pushed, at the slot that SP named before it. -/
theorem callThenReturnRestores : Obligations.CallThenReturnRestores := by
  intro nnn s t hroom hcall
  obtain ⟨t', hcall', hpushed, hkept, htsp, -, hst⟩ := (callPushesReturnAddress nnn s).1 hroom
  obtain rfl : t' = t := next_unique hcall' hcall
  obtain ⟨u, hret, husp, hpopped, htu⟩ := (returnPopsIntoPc t').1 (by omega)
  have hsp : u.sp = s.sp := Fin.ext (by omega)
  have hstack : u.stack = t'.stack := htu.2 .stack (by simp)
  have hpc : u.pc = s.pc + 2 := (hpopped ⟨s.sp.val, hroom⟩ (by simp only; omega)).trans (hpushed _ rfl)
  refine ⟨u, hret, hpc, hsp, fun k hk => by rw [hstack, hkept k hk], htu.1.trans hst.1, fun f hf => ?_⟩
  by_cases hfsp : f = .sp
  · exact hfsp ▸ hsp
  · exact (hst.trans htu).2 f (by simp_all)

/-! ### Results in a register (42_alu.md) -/

/-- An instruction that writes one register and advances. -/
theorem exec_setV_advance {i : Instr} {s : State} {x : Nibble} {b : Byte}
    (h : exec i s = (s.setV x b).complete i .advance) (P : Byte → Prop) (hb : P b) :
    ∃ t, exec i s = .next t ∧ P (t.v x) ∧ (∀ r : Nibble, r ≠ x → t.v r = s.v r) ∧ t.pc = s.pc + 2 ∧
      s.SameBut t [.v, .pc] :=
  ⟨_, h, (s.v_setV_same x b).symm ▸ hb, fun _ hr => s.v_setV_other b hr, rfl,
    (s.sameBut_setV x b).trans (State.sameBut_setPc _ _)⟩

/-- Settles O33: both write one register. -/
theorem immediateLoadAndAdd : Obligations.ImmediateLoadAndAdd := fun x kk s =>
  ⟨exec_setV_advance rfl (· = kk) rfl,
    exec_setV_advance rfl (fun v => v.toNat = ((s.v x).toNat + kk.toNat) % 256) (BitVec.toNat_add _ _)⟩

theorem exec_ldReg_present {x y : Nibble} {s : State} (h : s.params.ldVxVyPresent = true) :
    exec (.ldReg x y) s = (s.setV x (s.v y)).complete (.ldReg x y) .advance := by
  rw [exec, execLdReg, if_pos h]

theorem exec_ldReg_absent {x y : Nibble} {s : State} (h : s.params.ldVxVyPresent = false) :
    exec (.ldReg x y) s = .next (s.unmatched (encode (.ldReg x y))) := by
  rw [exec, execLdReg, if_neg (by rw [h]; exact Bool.false_ne_true)]

/-- Settles O34: with its row `8xy0` writes one register, without it the step is `State.unmatched`. -/
theorem copyWhereTheRowIsPresent : Obligations.CopyWhereTheRowIsPresent := by
  intro x y s
  refine ⟨fun hrow => exec_setV_advance (exec_ldReg_present hrow) (· = s.v y) rfl, fun hrow hp => ?_,
    fun hrow hp => ?_, fun hrow hp => ⟨_, exec_ldReg_absent hrow, ?_⟩⟩
  · rw [exec_ldReg_absent hrow, s.unmatched_stall _ hp]
  · rw [exec_ldReg_absent hrow, s.unmatched_advance _ hp]
  · rw [s.unmatched_fault _ hp]
    exact ⟨s.haltedBy_raise _ _, s.sameBut_raise _ _⟩

/-- Settles O35: each writes one register, whose bits are those of the bitwise operation. -/
theorem bitwiseOperationsActBitByBit : Obligations.BitwiseOperationsActBitByBit := fun x y s =>
  ⟨exec_setV_advance rfl (fun v => ∀ k, v.getLsbD k = ((s.v x).getLsbD k || (s.v y).getLsbD k))
      fun _ => BitVec.getLsbD_or,
    exec_setV_advance rfl (fun v => ∀ k, v.getLsbD k = ((s.v x).getLsbD k && (s.v y).getLsbD k))
      fun _ => BitVec.getLsbD_and,
    exec_setV_advance rfl (fun v => ∀ k, v.getLsbD k = ((s.v x).getLsbD k ^^ (s.v y).getLsbD k))
      fun _ => BitVec.getLsbD_xor⟩

/-! ### Results with a flag (42_alu.md R87) -/

/-- Settles O36: the carry is written last, so that it stands where `x` is 15. -/
theorem addRegistersWritesCarry : Obligations.AddRegistersWritesCarry := by
  intro x y s
  refine ⟨_, rfl, ?_, fun hx => ?_, fun r hrx hr => ?_, rfl,
    ((s.sameBut_setV x _).trans ((State.sameBut_setV _ vf _).trans (State.sameBut_setPc _ _))).mono (by simp)⟩
  · exact (congrArg BitVec.toNat (State.v_setV_same _ vf _)).trans (toNat_carryFlag _ _)
  · have hv := (State.v_setV_other (s.setV x (s.v x + s.v y)) (carryFlag (s.v x) (s.v y)) hx).trans (s.v_setV_same x _)
    exact (congrArg BitVec.toNat hv).trans (BitVec.toNat_add _ _)
  · exact (State.v_setV_other _ _ hr).trans (s.v_setV_other _ hrx)

/-- An instruction that writes a flag and a result and advances: the result reads the flag where its operand is VF and
the flag is written first. -/
theorem exec_writeFlagged_advance {i : Instr} {s : State} {x y : Nibble} {flag result : Byte → Byte → Byte}
    (h : exec i s = (s.writeFlagged x y flag result).complete i .advance) {f : Byte} (hf : f = flag (s.v x) (s.v y)) :
    ∃ t, exec i s = .next t ∧
      (x ≠ 15 → t.v x = result (s.v x) (if y = 15 ∧ s.params.aluVfOrder = .sequential then f else s.v y)) ∧
      t.v 15 = (if x = 15 ∧ s.params.aluVfOrder = .sequential then result f (if y = 15 then f else s.v y) else f) ∧
      (∀ r : Nibble, r ≠ x → r ≠ 15 → t.v r = s.v r) ∧ t.pc = s.pc + 2 ∧ s.SameBut t [.v, .pc] := by
  have hv := s.v_writeFlagged x y flag result
  have hframe := s.writeFlagged_frame x y flag result
  rw [← hf] at hv
  generalize s.writeFlagged x y flag result = u at *
  have hread (r : Nibble) : ({ u with pc := u.pc + 2 } : State).v r = u.v r := rfl
  refine ⟨{ u with pc := u.pc + 2 }, h, fun hx => ?_, ?_, fun r hrx hr => ?_, ?_, ?_⟩
  · rw [hread, hv]
    by_cases hseq : s.params.aluVfOrder = .sequential <;>
      simp only [hseq, hx, and_true, and_false, if_true, if_false]
  · rw [hread, hv]
    rcases eq_or_ne x 15 with rfl | hx
    · by_cases hseq : s.params.aluVfOrder = .sequential <;>
        simp only [hseq, and_true, and_false, if_true, if_false]
    · simp only [hx, hx.symm, false_and, if_true, if_false, ite_self]
  · rw [hread, hv]
    simp only [hrx, hr, if_false, ite_self]
  · rw [hframe]
  · rw [hframe]
    exact State.sameBut_of_fields (by simp)

/-- Settles O37: the saturating difference of what the operands then read. -/
theorem subtractSaturatesWithFlag : Obligations.SubtractSaturatesWithFlag := by
  rintro x y s a b f rfl rfl hf
  obtain ⟨t, hexec, hx, hvf, hrest⟩ :=
    exec_writeFlagged_advance (i := .subReg x y) (s := s) (flag := notBorrowFlag) (result := satSub) rfl rfl
  rw [← toNat_notBorrowFlag] at hf
  refine ⟨t, hexec, fun h15 => ?_, ?_, hrest⟩
  · rw [hx h15, toNat_satSub, hf, apply_ite BitVec.toNat, apply_ite (_ - ·)]
  · rw [hvf, apply_ite BitVec.toNat, toNat_satSub, hf]
    split_ifs with hx15 hy15
    · obtain ⟨rfl, -⟩ := hx15
      rw [hy15, toNat_notBorrowFlag, if_neg (Nat.lt_irrefl _), Nat.zero_sub, Nat.zero_sub]
    · rfl
    · rfl

/-- Settles O38: the bit shifted out of VF itself is at most 1, so that its half is 0. -/
theorem shiftRightMovesLowBitToFlag : Obligations.ShiftRightMovesLowBitToFlag := by
  intro x y s
  obtain ⟨t, hexec, hx, hvf, hrest⟩ :=
    exec_writeFlagged_advance (i := .shr x y) (s := s) (y := x) (flag := fun a _ => lowBit a)
      (result := fun a _ => a >>> 1) rfl rfl
  refine ⟨t, hexec, fun h15 => ?_, ?_, hrest⟩
  · rw [hx h15, BitVec.toNat_ushiftRight, Nat.shiftRight_eq_div_pow]
  · rw [hvf, apply_ite BitVec.toNat, BitVec.toNat_ushiftRight, Nat.shiftRight_eq_div_pow, toNat_lowBit]
    congr 1
    omega

/-- Settles O39: the saturating difference of what the operands then read, the other way round. -/
theorem reverseSubtractSaturatesWithFlag : Obligations.ReverseSubtractSaturatesWithFlag := by
  rintro x y s a b f rfl rfl hf
  obtain ⟨t, hexec, hx, hvf, hrest⟩ :=
    exec_writeFlagged_advance (i := .subnReg x y) (s := s) (flag := fun a b => notBorrowFlag b a)
      (result := fun a b => satSub b a) rfl rfl
  rw [← toNat_notBorrowFlag] at hf
  refine ⟨t, hexec, fun h15 => ?_, ?_, hrest⟩
  · rw [hx h15, toNat_satSub, hf, apply_ite BitVec.toNat, apply_ite (· - _)]
  · rw [hvf, apply_ite BitVec.toNat, toNat_satSub, hf, apply_ite BitVec.toNat, apply_ite (· - _), Nat.sub_self]

/-- Settles O40: the bit shifted out of VF itself is at most 1, so that its double does not overflow. -/
theorem shiftLeftMovesHighBitToFlag : Obligations.ShiftLeftMovesHighBitToFlag := by
  intro x y s
  obtain ⟨t, hexec, hx, hvf, hrest⟩ :=
    exec_writeFlagged_advance (i := .shl x y) (s := s) (y := x) (flag := fun a _ => highBit a)
      (result := fun a _ => a <<< 1) rfl rfl
  refine ⟨t, hexec, fun h15 => ?_, ?_, hrest⟩
  · rw [hx h15, BitVec.toNat_shiftLeft, Nat.shiftLeft_eq]
    omega
  · rw [hvf, apply_ite BitVec.toNat, BitVec.toNat_shiftLeft, Nat.shiftLeft_eq, toNat_highBit]
    have := (s.v x).isLt
    congr 1
    omega

/-! ### The random byte (42_alu.md R99) -/

/-- A fault raised on a state at the same PC halts the machine there. -/
theorem State.haltedBy_raise_of_pc {s u : State} (hpc : u.pc = s.pc) (f : Fault) (w : Word) :
    s.HaltedBy (u.raise (some w) f) f w :=
  ⟨by rw [State.raise_fault, hpc], hpc⟩

/-- Settles O41: the draw is one of the two of `State.drawByte_cases`. -/
theorem randomByteIsMaskedOrFails : Obligations.RandomByteIsMaskedOrFails := by
  intro x kk s
  refine ⟨fun havailable => ?_, fun hfails => ?_⟩
  · have hdraw : s.drawByte = .ok s.sample.byte := if_pos havailable
    refine ⟨(s.nextDraw.setV x (s.sample.byte &&& kk)).applyEffect (encode (.rnd x kk)) .advance, ?_, ?_, ?_, rfl, ?_⟩
    · rw [exec, execRnd, hdraw]
    · exact State.v_setV_same ..
    · exact fun r hr => State.v_setV_other s.nextDraw _ hr
    · exact State.sameBut_of_fields (by simp)
  · have hdraw : s.drawByte = .error .randomSourceFailure := if_neg (by simp [hfails])
    refine ⟨s.nextDraw.raise (some (encode (.rnd x kk))) .randomSourceFailure, ?_,
      State.haltedBy_raise_of_pc s.nextDraw_pc _ _, State.sameBut_of_fields (by simp)⟩
    rw [exec, execRnd, hdraw]

/-! ### The index register (43_index_memory.md R100 to R102) -/

/-- An instruction that writes I and advances. -/
theorem exec_setI_advance {i : Instr} {s : State} {w : Word}
    (h : exec i s = ({ s with i := w } : State).complete i .advance) {n : Nat} (hn : w.toNat = n) :
    ∃ t, exec i s = .next t ∧ t.i.toNat = n ∧ t.pc = s.pc + 2 ∧ s.SameBut t [.i, .pc] :=
  ⟨_, h, hn, rfl, State.sameBut_of_fields (by simp)⟩

theorem toNat_glyphAddress (v : Byte) : (glyphAddress v).toNat = 5 * v.toNat := by
  have := v.isLt
  rw [glyphAddress, BitVec.toNat_ofNat]
  omega

/-- Settles O42: both write I, with the values of `toNat_zextAddr` and `toNat_glyphAddress`. -/
theorem indexLoadAndGlyphAddress : Obligations.IndexLoadAndGlyphAddress := fun nnn x s =>
  ⟨exec_setI_advance rfl (toNat_zextAddr nnn), exec_setI_advance rfl (toNat_glyphAddress (s.v x))⟩

/-- Settles O43: the sum is written where it fits or wraps, and is not where it faults. -/
theorem indexAddWrapsOrFaults : Obligations.IndexAddWrapsOrFaults := by
  intro x s
  refine ⟨fun hwrites => ?_, fun hover hfault => ⟨_, ?_, s.haltedBy_raise _ _, s.sameBut_raise _ _⟩⟩
  · by_cases hover : 0xFFFF < s.i.toNat + (s.v x).toNat
    · have hwrap := hwrites.resolve_left (Nat.not_le.2 hover)
      refine exec_setI_advance (w := BitVec.ofNat 16 ((s.i.toNat + (s.v x).toNat) % 65536)) ?_ ?_
      · simp only [exec, execAddIVx, hover, if_true, hwrap]
      · rw [BitVec.toNat_ofNat, Nat.mod_mod]
    · refine exec_setI_advance (w := BitVec.ofNat 16 (s.i.toNat + (s.v x).toNat)) ?_ (BitVec.toNat_ofNat _ _)
      simp only [exec, execAddIVx, hover, if_false]
  · simp only [exec, execAddIVx, hover, if_true, hfault, State.abort]

/-! ### Keys and timers (45_input_timers.md) -/

/-- Settles O52: in range both instructions skip on the key `keyIndex_of_inRange` names, out of range both raise. -/
theorem keySkipsTestTheNamedKey : Obligations.KeySkipsTestTheNamedKey := by
  intro x k s
  refine ⟨fun hrange hk => ?_, fun hmode hrange => ?_⟩
  · have hin : ¬ (s.params.keyIndexMode = .fault ∧ 15 < (s.v x).toNat) := by
      rintro ⟨hmode, hover⟩
      rcases hrange with hlow | hsmall
      · rw [hlow] at hmode; cases hmode
      · omega
    have hnumber : (s.v x).setWidth 4 = k := BitVec.eq_of_toNat_eq (by rw [hk, BitVec.toNat_setWidth])
    have hkey : keyIndex s.params.keyIndexMode (s.v x) = .ok k := by rw [keyIndex_of_inRange hin, hnumber]
    constructor
    · simp only [exec, execSkp, hkey, State.complete, State.applyEffect_skipIf]
    · simp only [exec, execSknp, hkey, State.complete, State.applyEffect_skipIf]
      cases s.keyDown k <;> rfl
  · have hkey : keyIndex s.params.keyIndexMode (s.v x) = .error (.keyIndexRange (s.v x)) := by
      rw [hmode, keyIndex, if_pos hrange]
    refine ⟨⟨_, ?_, s.haltedBy_raise _ _, s.sameBut_raise _ _⟩, ⟨_, ?_, s.haltedBy_raise _ _, s.sameBut_raise _ _⟩⟩
    · simp only [exec, execSkp, hkey, State.abort]
    · simp only [exec, execSknp, hkey, State.abort]

/-- Settles O53: reading DT writes one register; writing a timer writes that timer. -/
theorem timerInstructionsMoveTheTimers : Obligations.TimerInstructionsMoveTheTimers := fun _ s =>
  ⟨exec_setV_advance rfl (· = s.dt) rfl, ⟨_, rfl, rfl, rfl, State.sameBut_of_fields (by simp)⟩,
    ⟨_, rfl, rfl, rfl, State.sameBut_of_fields (by simp)⟩⟩

end Sys2Proof.Machine

/-! ## The obligations of the memory transfers (43_index_memory.md R103 to R105) -/

namespace Sys2Proof.Machine

section
variable {s : State}

/-- Bytes stored at I, all of them in memory. -/
theorem State.storeAtI_ok (hwf : s.MemWf) {bs : List Byte} (hfit : s.i.toNat + bs.length ≤ 4096) :
    ∃ u, s.storeBytes (s.indexed 0) bs = .ok u ∧
      (∀ k b, bs[k]? = some b → u.byteAt (s.i.toNat + k) = b) ∧
      (∀ a, a < s.i.toNat ∨ s.i.toNat + bs.length ≤ a → u.byteAt a = s.byteAt a) ∧ s.SameBut u [.m] := by
  obtain ⟨u, hstore, hmem, hkept, hstored⟩ := State.storeBytes_ok (s := s) hfit
  exact ⟨u, hstore, (hstored hwf).2, hkept, State.sameBut_of_eq_setMem hmem⟩

/-- Bytes stored at I, not all of them in memory: the lowest address out of range is named. -/
theorem State.storeAtI_error {bs : List Byte} (hne : bs ≠ []) (hover : 4096 < s.i.toNat + bs.length) :
    s.storeBytes (s.indexed 0) bs = .error (.memoryBounds (max 4096 s.i.toNat)) :=
  State.storeBytes_error hne hover

/-- A faulting store at I: of memory, only the bytes it would have written may change. -/
theorem State.abort_freeStore (i : Instr) (f : Fault) (n : Nat) :
    ∃ t, (s.freeStore (s.indexed 0) (List.range (n + 1))).abort i f = .next t ∧ s.HaltedBy t f (encode i) ∧
      (∀ a, a < s.i.toNat ∨ s.i.toNat + n < a ∨ 4096 ≤ a → t.byteAt a = s.byteAt a) ∧
      s.SameBut t [.m, .fault, .free] := by
  obtain ⟨hframe, -, hkept⟩ := s.freeStore_spec (s.indexed 0) (List.range (n + 1))
  refine ⟨_, rfl, State.haltedBy_raise_of_pc (by rw [hframe]) f _, fun a ha => ?_, ?_⟩
  · refine hkept a ?_
    rcases ha with hbelow | habove | hout
    · exact .inl fun k _ => by rw [State.indexed]; omega
    · exact .inl fun k hk => by rw [List.mem_range] at hk; rw [State.indexed]; omega
    · exact .inr hout
  · rw [hframe]
    exact State.sameBut_of_fields (by simp)

end

/-- Settles O44: the three digits are stored at I, or the store faults. -/
theorem bcdStoresThreeDigits : Obligations.BcdStoresThreeDigits := by
  intro x s hwf
  have hbyte := (s.v x).isLt
  refine ⟨fun hfit => ?_, fun hover => ?_⟩
  · obtain ⟨u, hstore, hstored, hkept, hsame⟩ := State.storeAtI_ok hwf (bs := decimalDigits (s.v x)) hfit
    have hdigit (k : Nat) (d : Nat) (hd : (decimalDigits (s.v x))[k]? = some (BitVec.ofNat 8 d)) (hlt : d < 256) :
        (u.byteAt (s.i.toNat + k)).toNat = d := by
      rw [hstored k _ hd, BitVec.toNat_ofNat, Nat.mod_eq_of_lt hlt]
    refine ⟨u.applyEffect (encode (.ldBVx x)) .advance, ?_, hdigit 0 _ rfl (by omega), hdigit 1 _ rfl (by omega),
      hdigit 2 _ rfl (by omega), fun a ha => hkept a ?_, ?_, hsame.trans (u.sameBut_setPc _)⟩
    · simp only [exec, execLdBVx, hstore, State.complete]
    · exact ha.imp id id
    · rw [State.applyEffect_advance, show u.pc = s.pc from hsame.2 .pc (by simp)]
  · have hstore := State.storeAtI_error (s := s) (bs := decimalDigits (s.v x)) (List.cons_ne_nil _ _)
      (Nat.lt_succ_of_le hover)
    obtain ⟨t, ht, hrest⟩ := State.abort_freeStore (s := s) (.ldBVx x) (.memoryBounds (max 4096 s.i.toNat)) 2
    refine ⟨t, ?_, hrest⟩
    rw [← ht, exec, execLdBVx, hstore]

/-- Settles O45: the registers' values are stored at I, or the store faults. -/
theorem storeRegistersToMemory : Obligations.StoreRegistersToMemory := by
  intro x s hwf
  refine ⟨fun hfit => ?_, fun hover => ?_⟩
  · have hlength := valuesTo_length s x
    obtain ⟨u, hstore, hstored, hkept, hsame⟩ := State.storeAtI_ok hwf (bs := s.valuesTo x) (by omega)
    refine ⟨u.applyEffect (encode (.ldMemVx x)) .advance, ?_, fun r hr => hstored _ _ (valuesTo_get s hr),
      fun a ha => hkept a (by omega), ?_, hsame.trans (u.sameBut_setPc _)⟩
    · simp only [exec, execLdMemVx, hstore, State.complete]
    · rw [State.applyEffect_advance, show u.pc = s.pc from hsame.2 .pc (by simp)]
  · obtain ⟨t, ht, hrest⟩ := State.abort_freeStore (s := s) (.ldMemVx x) (.memoryBounds (max 4096 s.i.toNat)) x.toNat
    have hlength := valuesTo_length s x
    have hne : s.valuesTo x ≠ [] := List.ne_nil_of_length_pos (by omega)
    refine ⟨t, ?_, hrest⟩
    rw [← ht, exec, execLdMemVx, State.storeAtI_error hne (by omega), registersTo]

/-- Settles O22: the store of O45 puts V0 and V1 where PC, after the store, stands. -/
theorem storedWordIsFetchedNext : Obligations.StoredWordIsFetchedNext := by
  intro s x hwf hx hi hpc hfit
  obtain ⟨t, hexec, hstored, -, htpc, -⟩ := (storeRegistersToMemory x s hwf).1 hfit
  have hhigh : t.byteAt s.i.toNat = s.v 0 := hstored 0 (Nat.zero_le _)
  have hlow : t.byteAt (s.i.toNat + 1) = s.v 1 := hstored 1 hx
  have hnext : t.pc = s.i := htpc.trans hi.symm
  refine ⟨t, hexec, ?_⟩
  rw [State.fetch_ok (by rw [hnext, memSize]; omega), hnext, hhigh, hlow, wordOfBytes]

/-- Settles O46: the registers are loaded from I, or the load faults. -/
theorem loadRegistersFromMemory : Obligations.LoadRegistersFromMemory := by
  intro x s
  refine ⟨fun hfit => ?_, fun hover => ?_⟩
  · obtain ⟨u, hload, hregs, hloaded, hkept⟩ := State.loadRegisters_ok (s.indexed 0) (ks := registersTo x) (s := s)
      fun k hk => ⟨registersTo_lt hk, by have := mem_registersTo.1 hk; rw [State.indexed, memSize]; omega⟩
    have hsame : s.SameBut u [.v] := hregs ▸ State.sameBut_of_fields (by simp)
    refine ⟨u.applyEffect (encode (.ldVxMem x)) .advance, ?_, fun r hr => hloaded r (mem_registersTo.2 hr),
      fun r hr => hkept r fun hmem => Nat.not_le.2 hr (mem_registersTo.1 hmem), ?_, hsame.trans (u.sameBut_setPc _)⟩
    · simp only [exec, execLdVxMem, hload, State.complete]
    · rw [State.applyEffect_advance, show u.pc = s.pc from hsame.2 .pc (by simp)]
  · have hload : s.loadRegisters (s.indexed 0) (registersTo x) = .error (.memoryBounds (max 4096 s.i.toNat)) := by
      rw [registersTo, List.range_eq_range',
        State.loadRegisters_error _ _ (by rw [State.indexed, memSize]; omega) (Nat.succ_pos _)]
      rfl
    obtain ⟨hframe, hkept⟩ := s.freeRegisters_spec (registersTo x) fun _ => registersTo_lt
    refine ⟨(s.freeRegisters (registersTo x)).raise (some (encode (.ldVxMem x))) (.memoryBounds (max 4096 s.i.toNat)),
      ?_,
      State.haltedBy_raise_of_pc (by rw [hframe]) _ _,
      fun r hr => hkept r fun hmem => Nat.not_le.2 hr (mem_registersTo.1 hmem), ?_⟩
    · rw [exec, execLdVxMem, hload]
      rfl
    · rw [hframe]
      exact State.sameBut_of_fields (by simp)

end Sys2Proof.Machine

/-! ## The obligations of the draw (44_display.md R107, R108) -/

namespace Sys2Proof.Machine

/-! ### The draw as the loop of the rule -/

/-- The framebuffer and VF that the loop of 44_display.md R107 ends with. -/
def State.drawn (s : State) (x y : Nibble) (n : Nat) : Framebuffer × Byte :=
  (drawOrder n).foldl (s.drawTurn x y) (s.fb, 0#8)

/-- A canvas as the pair that the loop of the rule changes. -/
def Canvas.pair (cv : Canvas) : Framebuffer × Byte := (cv.fb, cv.vf)

/-- The start column and row are those of a turn of the rule's loop. -/
theorem State.drawStart_eq (s : State) (x y : Nibble) (flag : Byte) :
    s.drawStart x y flag =
      (if s.params.drawCoordRead = .live ∧ x = 15 then flag else s.v x,
        if s.params.drawCoordRead = .live ∧ y = 15 then flag else s.v y) := by
  cases h : s.params.drawCoordRead with
  | latched => simp only [State.drawStart, h, reduceCtorEq, false_and, if_false]
  | live =>
    simp only [State.drawStart, h, State.liveV, true_and]
    rfl

/-- One column of a sprite row is one turn of the rule's loop. -/
theorem State.drawTurn_pair (s : State) (x y : Nibble) (cv : Canvas) (r c : Nat) :
    s.drawTurn x y cv.pair (r, c) =
      (if spriteBit (s.byteAt (s.i.toNat + r)) c then
        cv.toggleAt (pixelColumn (s.drawStart x y cv.vf).1 c) (pixelRow (s.drawStart x y cv.vf).2 r) else cv).pair := by
  rw [State.drawStart_eq, State.drawTurn, spriteBit]
  split
  · rfl
  · rfl

/-- A sprite row is its turns of the rule's loop. -/
theorem State.drawColumns_pair (s : State) (x y : Nibble) (r : Nat) : ∀ (cs : List Nat) (cv : Canvas),
    (cs.map fun c => (r, c)).foldl (s.drawTurn x y) cv.pair =
      (Canvas.drawColumns (s.drawStart x y) r (s.byteAt (s.i.toNat + r)) cs cv).pair
  | [], _ => rfl
  | c :: cs, cv => by
    rw [List.map_cons, List.foldl_cons, State.drawTurn_pair, State.drawColumns_pair s x y r cs, Canvas.drawColumns]
    split <;> rfl

/-- The sprite of `n` rows at I lies in memory. -/
def State.SpriteFits (s : State) (n : Nibble) : Prop := n = 0 ∨ s.i.toNat + n.toNat ≤ 4096

/-- A draw whose sprite lies in memory ends with the canvas of the rule's loop. -/
theorem exec_drw {s : State} {n : Nibble} (hfits : s.SpriteFits n) (x y : Nibble) :
    exec (.drw x y n) s =
      (({ s with fb := (s.drawn x y n.toNat).1 } : State).setV vf (s.drawn x y n.toNat).2).complete (.drw x y n)
        .advance := by
  have hrows : ∀ r ∈ List.range n.toNat, s.i.toNat + r < memSize := by
    intro r hr
    rw [List.mem_range] at hr
    rcases hfits with rfl | hfits
    · exact absurd hr (Nat.not_lt_zero r)
    · rw [memSize]; omega
  have hloop : (List.range n.toNat).foldl
      (fun now r => ((List.range 8).map fun c => (r, c)).foldl (s.drawTurn x y) now) (Canvas.pair ⟨s.fb, 0#8⟩) =
      Canvas.pair ((List.range n.toNat).foldl
        (fun cv r => cv.drawColumns (s.drawStart x y) r (s.byteAt (s.i.toNat + r)) (List.range 8)) ⟨s.fb, 0#8⟩) :=
    List.foldl_hom _ fun cv r => s.drawColumns_pair x y r _ cv
  rw [State.drawn, drawOrder, List.foldl_flatMap]
  simp only [exec, execDrw, State.drawRows_ok s _ hrows]
  exact hloop ▸ rfl

/-- Settles O48: the state of `exec_drw`. -/
theorem drawFollowsThePixelLoop : Obligations.DrawFollowsThePixelLoop := by
  intro x y n s hfits
  have hvf := State.v_setV_same { s with fb := (s.drawn x y n.toNat).1 } vf (s.drawn x y n.toNat).2
  refine ⟨_, exec_drw hfits x y, Prod.ext rfl hvf, fun r hr => ?_, rfl, State.sameBut_of_fields (by simp)⟩
  exact State.v_setV_other { s with fb := _ } _ hr

/-! ### Toggling a list of pixels -/

/-- One set pixel of the sprite: the framebuffer is toggled there, and VF notes a pixel that was on. -/
def toggleNoting (now : Framebuffer × Byte) (p : Fin 64 × Fin 32) : Framebuffer × Byte :=
  (togglePixel now.1 p.1 p.2, if pixel now.1 p.1 p.2 = true then 1#8 else now.2)

/-- Toggling each pixel of a list once inverts those and no other. -/
theorem pixel_foldl_toggleNoting (px : Fin 64) (py : Fin 32) : ∀ {ps : List (Fin 64 × Fin 32)}, ps.Nodup →
    ∀ now : Framebuffer × Byte, pixel (ps.foldl toggleNoting now).1 px py =
      if (px, py) ∈ ps then !pixel now.1 px py else pixel now.1 px py
  | [], _, now => rfl
  | p :: ps, hnodup, now => by
    obtain ⟨hp, hps⟩ := List.nodup_cons.1 hnodup
    rw [List.foldl_cons, pixel_foldl_toggleNoting px py hps, toggleNoting, pixel_togglePixel]
    by_cases hhere : (px, py) = p
    · subst hhere
      simp [hp]
    · have hother : ¬ (px = p.1 ∧ py = p.2) := fun h => hhere (Prod.ext h.1 h.2)
      simp [hhere, hother]

/-- Toggling each pixel of a list once notes whether one of them was on. -/
theorem flag_foldl_toggleNoting : ∀ {ps : List (Fin 64 × Fin 32)}, ps.Nodup → ∀ now : Framebuffer × Byte,
    (ps.foldl toggleNoting now).2 = if ∃ p ∈ ps, pixel now.1 p.1 p.2 = true then 1#8 else now.2
  | [], _, now => by simp
  | p :: ps, hnodup, now => by
    obtain ⟨hp, hps⟩ := List.nodup_cons.1 hnodup
    have hlater : (∃ q ∈ ps, pixel (toggleNoting now p).1 q.1 q.2 = true) ↔ ∃ q ∈ ps, pixel now.1 q.1 q.2 = true := by
      refine exists_congr fun q => and_congr_right fun hq => ?_
      have hother : ¬ (q.1 = p.1 ∧ q.2 = p.2) := fun h => hp (Prod.ext h.1 h.2 ▸ hq)
      rw [toggleNoting, pixel_togglePixel, if_neg hother]
    rw [List.foldl_cons, flag_foldl_toggleNoting hps, if_congr hlater rfl rfl, toggleNoting]
    by_cases hon : pixel now.1 p.1 p.2 = true <;> simp [hon]

/-! ### The pixels a sprite covers -/

/-- Where a sprite position falls on the screen. -/
def screenPlace (xs ys : Byte) (pos : Nat × Nat) : Fin 64 × Fin 32 := (pixelColumn xs pos.2, pixelRow ys pos.1)

/-- The pixels that the sprite of `n` rows at I covers, in the order of the loop. -/
def State.coveredPixels (s : State) (xs ys : Byte) (n : Nat) : List (Fin 64 × Fin 32) :=
  ((drawOrder n).filter fun pos => spriteBit (s.byteAt (s.i.toNat + pos.1)) pos.2).map (screenPlace xs ys)

theorem mem_drawOrder {n : Nat} {pos : Nat × Nat} : pos ∈ drawOrder n ↔ pos.1 < n ∧ pos.2 < 8 := by
  obtain ⟨r, c⟩ := pos
  exact List.pair_mem_product.trans (and_congr List.mem_range List.mem_range)

theorem mem_coveredPixels {s : State} {xs ys : Byte} {n : Nat} {px : Fin 64} {py : Fin 32} :
    (px, py) ∈ s.coveredPixels xs ys n ↔ s.Covers xs ys n px py := by
  simp only [State.coveredPixels, List.mem_map, List.mem_filter, mem_drawOrder, Prod.exists, State.Covers]
  refine exists_congr fun r => exists_congr fun c => ?_
  rw [screenPlace, eq_comm (b := (px, py)), Prod.ext_iff, Fin.ext_iff, Fin.ext_iff]
  simp only [and_assoc]
  rfl

/-- A sprite of at most 32 rows covers no pixel twice: it is no wider and no higher than the screen. -/
theorem nodup_coveredPixels (s : State) (xs ys : Byte) {n : Nat} (hn : n ≤ 32) : (s.coveredPixels xs ys n).Nodup := by
  have horder : (drawOrder n).Nodup := List.nodup_range.product List.nodup_range
  refine (horder.filter _).map_on fun p hp q hq hpq => ?_
  obtain ⟨hpr, hpc⟩ := mem_drawOrder.1 (List.mem_filter.1 hp).1
  obtain ⟨hqr, hqc⟩ := mem_drawOrder.1 (List.mem_filter.1 hq).1
  have hcolumn : (xs.toNat + p.2) % 64 = (xs.toNat + q.2) % 64 := congrArg (fun r => r.1.val) hpq
  have hrow : (ys.toNat + p.1) % 32 = (ys.toNat + q.1) % 32 := congrArg (fun r => r.2.val) hpq
  exact Prod.ext (by omega) (by omega)

/-- The place of a draw does not move with VF: it is read once, or from other registers. -/
def State.FixedPlace (s : State) (x y : Nibble) : Prop := s.params.drawCoordRead = .latched ∨ (x ≠ 15 ∧ y ≠ 15)

/-- At a fixed place the loop toggles the pixels the sprite covers. -/
theorem State.drawn_eq {s : State} {x y : Nibble} (h : s.FixedPlace x y) (n : Nat) :
    s.drawn x y n = (s.coveredPixels (s.v x) (s.v y) n).foldl toggleNoting (s.fb, 0#8) := by
  have hx : ¬ (s.params.drawCoordRead = .live ∧ x = 15) := by
    rintro ⟨hlive, h15⟩
    exact h.elim (fun hl => by rw [hl] at hlive; cases hlive) fun hne => hne.1 h15
  have hy : ¬ (s.params.drawCoordRead = .live ∧ y = 15) := by
    rintro ⟨hlive, h15⟩
    exact h.elim (fun hl => by rw [hl] at hlive; cases hlive) fun hne => hne.2 h15
  rw [State.coveredPixels, List.foldl_map, List.foldl_filter, State.drawn]
  congr 1
  funext now pos
  simp only [State.drawTurn, hx, hy, if_false]
  rfl

/-- Settles O49: the loop toggles each covered pixel once, and notes whether one was on. -/
theorem drawIsXorWithCollisionFlag : Obligations.DrawIsXorWithCollisionFlag := by
  intro x y n s hfits hplace
  have hn := n.isLt
  have hnodup := nodup_coveredPixels s (s.v x) (s.v y) (n := n.toNat) (by omega)
  obtain ⟨t, hexec, hpair, -⟩ := drawFollowsThePixelLoop x y n s hfits
  have hdrawn : (t.fb, t.v 15) = _ := hpair.trans (State.drawn_eq hplace n.toNat)
  have hpixel (px : Fin 64) (py : Fin 32) := pixel_foldl_toggleNoting px py hnodup (s.fb, 0#8)
  have hflag := flag_foldl_toggleNoting hnodup (s.fb, 0#8)
  rw [← hdrawn] at hpixel hflag
  have hcovered : (∃ p ∈ s.coveredPixels (s.v x) (s.v y) n.toNat, pixel s.fb p.1 p.2 = true) ↔
      ∃ px py, s.Covers (s.v x) (s.v y) n.toNat px py ∧ pixel s.fb px py = true := by
    simp only [Prod.exists, mem_coveredPixels]
  refine ⟨t, hexec, fun px py => ⟨fun hc => ?_, fun hc => ?_⟩, fun hon => ?_, fun hoff => ?_⟩
  · exact (hpixel px py).trans (if_pos (mem_coveredPixels.2 hc))
  · exact (hpixel px py).trans (if_neg (mem_coveredPixels.not.2 hc))
  · exact hflag.trans (if_pos (hcovered.2 hon))
  · refine hflag.trans (if_neg (hcovered.not.2 ?_))
    rintro ⟨px, py, hc, hon⟩
    exact Bool.false_ne_true ((hoff px py hc).symm.trans hon)

/-- Two states with the same I and memory cover the same pixels. -/
theorem State.covers_congr {s t : State} (hi : t.i = s.i) (hm : ∀ a, t.byteAt a = s.byteAt a) (xs ys : Byte) (n : Nat)
    (px : Fin 64) (py : Fin 32) : t.Covers xs ys n px py ↔ s.Covers xs ys n px py := by
  simp only [State.Covers, State.SpriteAt, hi, hm]

/-- Settles O50: the second draw covers the same pixels, and toggles them back. -/
theorem drawingTwiceRestoresTheScreen : Obligations.DrawingTwiceRestoresTheScreen := by
  intro x y n s t u hfits hfirst hsecond hsame
  have hplace : s.FixedPlace x y := hsame.symm.imp And.left id
  obtain ⟨t', hfirst', hframe, hregs⟩ : ∃ t', exec (.drw x y n) s = .next t' ∧ s.SameBut t' [.fb, .v, .pc] ∧
      ∀ r : Nibble, r ≠ 15 → t'.v r = s.v r :=
    (drawFollowsThePixelLoop x y n s hfits).imp fun _ ⟨h, _, hregs, _, hframe⟩ => ⟨h, hframe, hregs⟩
  obtain rfl : t = t' := next_unique hfirst hfirst'
  have hi : t.i = s.i := hframe.2 .i (by simp)
  have hm : ∀ a, t.byteAt a = s.byteAt a := hframe.2 .m (by simp)
  have hv : t.v x = s.v x ∧ t.v y = s.v y :=
    hsame.elim (fun hne => ⟨hregs x hne.1, hregs y hne.2⟩) fun hkept => hkept.2
  obtain ⟨t', ht, hfb, -⟩ := drawIsXorWithCollisionFlag x y n s hfits hplace
  obtain rfl : t = t' := next_unique hfirst ht
  obtain ⟨u', hu, hfb', hon, hoff⟩ := drawIsXorWithCollisionFlag x y n t (hi ▸ hfits) (hframe.1 ▸ hplace)
  obtain rfl : u = u' := next_unique hsecond hu
  simp only [hv, State.covers_congr hi hm] at hfb' hon hoff
  refine ⟨Framebuffer.ext fun px py => ?_, fun hflag => ?_, fun ⟨px, py, hc, hwas⟩ => hon ⟨px, py, hc, ?_⟩⟩
  · by_cases hc : s.Covers (s.v x) (s.v y) n.toNat px py
    · rw [(hfb' px py).1 hc, (hfb px py).1 hc, Bool.not_not]
    · rw [(hfb' px py).2 hc, (hfb px py).2 hc]
  · by_contra hnone
    have hall : ∀ px py, s.Covers (s.v x) (s.v y) n.toNat px py → pixel t.fb px py = false := fun px py hc => by
      rw [(hfb px py).1 hc, Bool.not_eq_false', ← Bool.not_eq_false]
      exact fun hwas => hnone ⟨px, py, hc, hwas⟩
    rw [hoff hall] at hflag
    cases hflag
  · rw [(hfb px py).1 hc, hwas, Bool.not_false]

/-- Settles O51: the rows are read up to the lowest address out of range, and then the screen and VF are free. -/
theorem drawFaultsPastTheEndOfMemory : Obligations.DrawFaultsPastTheEndOfMemory := by
  intro x y n s hn hover
  have hpos : 0 < n.toNat := Nat.pos_of_ne_zero fun h0 => hn (BitVec.eq_of_toNat_eq h0)
  have hrows : s.drawRows (s.drawStart x y) (List.range n.toNat) ⟨s.fb, 0#8⟩ =
      .error (.memoryBounds (max 4096 s.i.toNat)) := by
    rw [List.range_eq_range', State.drawRows_error s _ n.toNat (by rw [memSize]; omega) hpos]
    rfl
  obtain ⟨⟨fb, regs, hfree⟩, hkept⟩ := s.freeDrawing_spec
  refine ⟨s.freeDrawing.raise (some (encode (.drw x y n))) (.memoryBounds (max 4096 s.i.toNat)), ?_,
    State.haltedBy_raise_of_pc (by rw [hfree]) _ _, hkept, ?_⟩
  · rw [exec, execDrw, hrows]
    rfl
  · rw [hfree]
    exact State.sameBut_of_fields (by simp)

end Sys2Proof.Machine
